-- ==== Sys2Proof/Config.lean ====
section
/-!
DEFINITION. The parameters of the block (00_scope.md R7) that are plain numbers, each under its name, and the shape of its two
layout parameters. The parameters `N`, `START` and `T` are the contents of one engine (R8): Machine/Engine.lean, and the
field `engine` of State. The widths the spec decided (`SAMPLE_W`, `ID_W`, `HOLD_W`) are arguments of every type and operation
that depends on one, with the values here as defaults: a type written without arguments is this hardware's, and the machine,
BUILD and SERIALIZE can be stated at another choice (notes/assumptions/9.md). The values of the two layouts stand in
Machine/Lights.lean. No free value is needed: the model's steps take no value the spec leaves open.
-/

namespace Sys2Proof

/-- `SAMPLE_W` (R7, decision D5): the width of STEP's operand. -/
abbrev Config.sampleW : Nat := 8

/-- `ID_W` (R7, decision D3): the width of a state identifier. -/
abbrev Config.idW : Nat := 4

/-- `N_MAX` (R7): the largest number of states an identifier can name, 16. -/
abbrev Config.nMax : Nat := 2 ^ Config.idW

/-- `PRIMARY_W` (R7): the width of a primary light mask. -/
abbrev Config.primaryW : Nat := 6

/-- `PED_W` (R7): the width of a pedestrian light mask. -/
abbrev Config.pedW : Nat := 2

/-- `HOLD_W` (R7, decision D9): the width of a hold duration. -/
abbrev Config.holdW : Nat := 32

/-- The width of a command word, 16 bits: the operand, the reserved field, the opcode (30_encoding.md R79). -/
abbrev Config.cmdW : Nat := Config.sampleW + 4 + 4

/-- `TICK` (R7): one unit of `holdTicks`, in milliseconds. Only the host uses it. -/
abbrev Config.tickMs : Nat := 10

/-- The two roads of the intersection (R13): W is served by goW, S by goS. -/
inductive Approach where
  | w
  | s
deriving DecidableEq, Repr

/-- The three lights of one approach (10_state.md R25). -/
inductive Colour where
  | red
  | yellow
  | green
deriving DecidableEq, Repr

/-- The two pedestrian lights (10_state.md R26). -/
inductive PedLight where
  | walk
  | dontWalk
deriving DecidableEq, Repr

/-- `PRIMARY_LAYOUT` (R7): which light each bit of a primary mask stands for, bit 0 first. -/
structure Config.PrimaryLayout where
  light : Vector (Approach × Colour) Config.primaryW
deriving DecidableEq, Repr

/-- `PED_LAYOUT` (R7): which light each bit of a pedestrian mask stands for, bit 0 first. -/
structure Config.PedLayout where
  light : Vector PedLight Config.pedW
deriving DecidableEq, Repr

end Sys2Proof
end

