-- ==== Sys2Proof/Word.lean ====
section
/-!
DEFINITION. The word types of the block. All values are unsigned naturals of stated width (00_scope.md R10), bit 0 the
least significant. Each width is a parameter of Config.lean (R7); the comments give this hardware's values, which are the
defaults of the arguments.
-/

namespace Sys2Proof

/-- A byte of a table image (30_encoding.md R91). -/
abbrev Byte := BitVec 8

/-- A state identifier as the block holds it: `ID_W` = 4 bits (30_encoding.md R65). -/
abbrev StateId (idW : Nat := Config.idW) := BitVec idW

/-- The sample operand of STEP: `SAMPLE_W` = 8 bits (30_encoding.md R79). -/
abbrev Sample (sampleW : Nat := Config.sampleW) := BitVec sampleW

/-- The input index into a row's successor list, one of `NUM_INPUTS` = 8 values (30_encoding.md R67). -/
abbrev InputIndex := Fin 8

/-- A primary light mask: `PRIMARY_W` = 6 bits (10_state.md R25). -/
abbrev PrimaryMask := BitVec Config.primaryW

/-- A pedestrian light mask: `PED_W` = 2 bits (10_state.md R26). -/
abbrev PedMask := BitVec Config.pedW

/-- A hold duration in ticks: `HOLD_W` = 32 bits (10_state.md R27). -/
abbrev Hold (holdW : Nat := Config.holdW) := BitVec holdW

/-- A command word, 16 bits: the operand, the reserved field, the opcode (30_encoding.md R79). -/
abbrev CmdWord (sampleW : Nat := Config.sampleW) := BitVec (sampleW + 4 + 4)

/-- A response word, 48 bits: hold, ped, primary, state, two reserved bits, status (30_encoding.md R87). -/
abbrev RspWord (idW : Nat := Config.idW) (holdW : Nat := Config.holdW) :=
  BitVec (holdW + Config.pedW + Config.primaryW + idW + 2 + 2)

end Sys2Proof
end

