-- ==== Sys2Proof/Machine/Engine.lean ====
section
/-!
DEFINITION. One engine's construction-time parameters `N`, `START` and `T` (00_scope.md R8, 10_state.md R24 to R29), reads of
the table ROM (20_memory.md R51), and this hardware's engine (10_state.md R30). `ID_W` and `HOLD_W` are arguments with this
hardware's values as defaults, so that an engine of another choice can be stated (00_scope.md R7, notes/assumptions/9.md).
-/

namespace Sys2Proof.Machine

/-- The Moore outputs of one state (10_state.md R25 to R27): two light masks and a hold duration in ticks. -/
structure Outputs (holdW : Nat := Config.holdW) where
  primary : PrimaryMask
  ped : PedMask
  hold : BitVec holdW
deriving DecidableEq, Repr

/-- One row of the transition table (10_state.md R24): its outputs and its eight successors. A successor is a `Fin n`, as 43_construction.md R127 says, so a
dangling successor cannot be written down (10_state.md R29 (a)). -/
structure Row (n : Nat) (holdW : Nat := Config.holdW) extends Outputs holdW where
  next : Vector (Fin n) 8
deriving DecidableEq, Repr

/-- The parameters of one engine instance: `N` from 1 to what an identifier can name (16 for 4 bits), `START` below `N`, and a table of exactly `N` rows (00_scope.md R8,
10_state.md R24, R29). -/
structure Engine (idW : Nat := Config.idW) (holdW : Nat := Config.holdW) where
  n : Nat
  nPos : 1 ≤ n
  nMax : n ≤ 2 ^ idW
  start : Fin n
  rows : Vector (Row n holdW) n
deriving DecidableEq, Repr

/-- The code of a state identifier, 4 bits for this hardware (30_encoding.md R65). -/
def stateCode {n : Nat} (k : Fin n) (idW : Nat := Config.idW) : BitVec idW := BitVec.ofNat idW k.val

variable {idW holdW : Nat}

/-- `START` as the block holds it. -/
def Engine.startId (e : Engine idW holdW) : BitVec idW := stateCode e.start idW

/-- Row `T[x]` of the table ROM; none at the addresses `N..15`, which hold no row (20_memory.md R51). -/
def Engine.row? (e : Engine idW holdW) (x : BitVec idW) : Option (Row e.n holdW) :=
  if h : x.toNat < e.n then some e.rows[x.toNat] else none

/-- `T[x].primary`, `T[x].ped` and `T[x].hold` (20_memory.md R52). -/
def Engine.outputs? (e : Engine idW holdW) (x : BitVec idW) : Option (Outputs holdW) := (e.row? x).map fun r => r.toOutputs

/-- The `next_state_decoder`: `nsd(x, i) = T[x].next[i]`, one read of the table (41_step.md R111). -/
def nextStateDecoder (e : Engine idW holdW) (x : BitVec idW) (i : InputIndex) : Option (BitVec idW) :=
  (e.row? x).map fun r => stateCode r.next[i.val] idW

/-- The nine states of this hardware (00_scope.md R14), the closed set that 43_construction.md R127 recommends. -/
inductive StateName where
  | goW
  | waitW
  | goS
  | waitS
  | goPed
  | flashON1
  | flashOFF1
  | flashON2
  | flashOFF2
deriving DecidableEq, Repr

/-- The identifier of a named state (00_scope.md R14). -/
def StateName.id : StateName → Fin 9
  | .goW => 0
  | .waitW => 1
  | .goS => 2
  | .waitS => 3
  | .goPed => 4
  | .flashON1 => 5
  | .flashOFF1 => 6
  | .flashON2 => 7
  | .flashOFF2 => 8

/-- The code of a named state (30_encoding.md R65). -/
def StateName.code (x : StateName) : StateId := stateCode x.id

/-- A row whose successor does not depend on the input, as in the flash states (10_state.md R36 to R38). -/
def sameNext (k : Fin 9) : Vector (Fin 9) 8 := Vector.replicate 8 k

/-- Rows 0 to 3: the driving states (10_state.md R30, R31 to R34). -/
def drivingRows : Vector (Row 9) 4 := #v[
  { primary := 0b001100#6, ped := 0b01#2, hold := 100#32, next := #v[0, 0, 1, 1, 1, 1, 1, 1] },
  { primary := 0b010100#6, ped := 0b01#2, hold := 50#32, next := #v[2, 2, 2, 2, 4, 4, 4, 4] },
  { primary := 0b100001#6, ped := 0b01#2, hold := 100#32, next := #v[3, 3, 2, 2, 3, 3, 3, 3] },
  { primary := 0b100010#6, ped := 0b01#2, hold := 50#32, next := #v[0, 0, 0, 0, 4, 4, 4, 4] }]

/-- Rows 4 to 8: the pedestrian state and the flash cycle (10_state.md R30, R35 to R39). -/
def pedestrianRows : Vector (Row 9) 5 := #v[
  { primary := 0b100100#6, ped := 0b10#2, hold := 100#32, next := #v[4, 5, 5, 5, 4, 5, 5, 5] },
  { primary := 0b100100#6, ped := 0b01#2, hold := 20#32, next := sameNext 6 },
  { primary := 0b100100#6, ped := 0b00#2, hold := 20#32, next := sameNext 7 },
  { primary := 0b100100#6, ped := 0b01#2, hold := 20#32, next := sameNext 8 },
  { primary := 0b100100#6, ped := 0b00#2, hold := 20#32, next := #v[0, 0, 2, 0, 4, 0, 2, 0] }]

/-- The engine of this hardware: `N` = 9, `START` = 0 (goW) and the table of 10_state.md R30. -/
def thisEngine : Engine :=
  { n := 9, nPos := by decide, nMax := by decide, start := 0, rows := drivingRows ++ pedestrianRows }

end Sys2Proof.Machine
end

