-- ==== Sys2Proof/Machine/State.lean ====
section
/-!
DEFINITION. The state of one engine instance, its power-on and reset states, and the reasons a step can stop. `SAMPLE_W`, `ID_W`
and `HOLD_W` are arguments with this hardware's values as defaults (00_scope.md R7).
-/

namespace Sys2Proof.Machine

/-- The status of a response (30_encoding.md R88). Code 11 is reserved and never produced, so it has no constructor. -/
inductive Status where
  | ok
  | outOfRangeInput
  | illegalCommand
deriving DecidableEq, Repr

/-- What the host drives on the input ports at one rising edge of `clk` (30_encoding.md R75). -/
structure PortIn (sampleW : Nat := Config.sampleW) where
  rst : Bool
  cmdValid : Bool
  cmd : CmdWord sampleW
deriving DecidableEq, Repr

/-- The state. `engine`, `cur`, `rsp` and `rspValid` are all the spec gives the machine (10_state.md R20, R43 to R45). The
last three fields are the model's own (notes/assumptions/1.md, 3.md, 6.md): whether the first reset edge has happened
(70_reset_and_hazards.md R162), the never-cleared record of every non-OK status that 92_eei_decisions.md D20 asks a model to
keep, oldest first, and what the host will present at the coming edges (00_scope.md R9), the next edge first. -/
structure State (sampleW : Nat := Config.sampleW) (idW : Nat := Config.idW) (holdW : Nat := Config.holdW) where
  engine : Engine idW holdW
  cur : StateId idW
  rsp : RspWord idW holdW
  rspValid : Bool
  wasReset : Bool
  errors : List Status
  inputs : List (PortIn sampleW)
deriving DecidableEq, Repr

/-- Why a step stops. Both faults are safe: they stop the model where the spec gives no meaning, and no run that begins
with a reset edge meets either. -/
inductive Fault (idW : Nat := Config.idW) where
  /-- Raised by every command, legal or illegal, accepted before the first reset edge; safe (70_reset_and_hazards.md R162,
  93_implementation_defined.md I7). -/
  | commandBeforeReset
  /-- Raised by a command that must read `T[x]` where `x` names no row; safe (93_implementation_defined.md I9). -/
  | noSuchState (x : StateId idW)
deriving DecidableEq, Repr

/-- Why an instruction has no meaning. Every instruction of the opcode table has one, so nothing raises this. -/
inductive Refusal where
  /-- Raised only by an arm of `exec` whose instruction has no meaning yet (none has this arm); safe. -/
  | notModelled (mnemonic : String)
deriving DecidableEq, Repr

/-- The outcome of a step of this machine. -/
abbrev Result (sampleW : Nat := Config.sampleW) (idW : Nat := Config.idW) (holdW : Nat := Config.holdW) :=
  Host.Outcome (State sampleW idW holdW) (Fault idW) Refusal

/-- A built engine before its first reset edge: `cur` and `rsp` are unspecified (70_reset_and_hazards.md R162), and so is
`rsp_valid`, so all three are arguments. -/
def State.powerOn {idW holdW : Nat} (e : Engine idW holdW) (cur : StateId idW) (rsp : RspWord idW holdW) (rspValid : Bool)
    (sampleW : Nat := Config.sampleW) : State sampleW idW holdW :=
  { engine := e, cur := cur, rsp := rsp, rspValid := rspValid, wasReset := false, errors := [], inputs := [] }

/-- This hardware right after reset (10_state.md R45, 70_reset_and_hazards.md R163): `cur` = `START`, `rsp_valid` = 0, the
constructed table. `rsp` = 0 is a DESIGN CHOICE, for the spec leaves it unspecified (notes/assumptions/2.md). The host has
placed nothing on the command port (notes/assumptions/1.md). -/
def State.reset : State :=
  { engine := thisEngine, cur := thisEngine.startId, rsp := 0, rspValid := false, wasReset := true, errors := [],
    inputs := [] }

end Sys2Proof.Machine
end

