-- ==== Sys2Proof/Machine/Flags.lean ====
section
/-!
DEFINITION. The block has no condition flags (10_state.md R23). What stands in their place is the status of a response: its
2-bit code (30_encoding.md R88) and the model's record of the statuses that are not OK (92_eei_decisions.md D20).
-/

namespace Sys2Proof.Machine

/-- The status code in a response (30_encoding.md R88). -/
def Status.code : Status → BitVec 2
  | .ok => 0b00#2
  | .outOfRangeInput => 0b01#2
  | .illegalCommand => 0b10#2

/-- The model's never-cleared record after one more response: a status that is not OK is added at the end. -/
def recordStatus (st : Status) (errors : List Status) : List Status :=
  match st with
  | .ok => errors
  | .outOfRangeInput => errors ++ [.outOfRangeInput]
  | .illegalCommand => errors ++ [.illegalCommand]

end Sys2Proof.Machine
end

