-- ==== Sys2Proof/Machine/Ops.lean ====
section
/-!
DEFINITION. The named operations the meanings are built of, after the primitives of 00_scope.md R11: `cur <- v`,
`respond(status, x)`, `raise`, and the effects of an edge that accepts no command. Raising an error is the only exception
the block has (60_exceptions.md R135, R143): it saves nothing, transfers control nowhere and has no return (R144).
-/

namespace Sys2Proof.Machine

variable {sampleW idW holdW : Nat}

/-- The response word of status `st` for state `x` whose outputs are `o` (30_encoding.md R87): hold, ped, primary, state, two
reserved zero bits, status, from the high end; 48 bits for this hardware's widths. -/
def responseWord (st : Status) (x : StateId idW) (o : Outputs holdW) : RspWord idW holdW :=
  o.hold ++ o.ped ++ o.primary ++ x ++ 0b00#2 ++ st.code

/-- `cur <- v`. -/
def State.writeCur (v : StateId idW) (s : State sampleW idW holdW) : State sampleW idW holdW := { s with cur := v }

/-- The response register loaded with a response: `rsp_valid` becomes 1 (30_encoding.md R89), and the model's record takes
the status (92_eei_decisions.md D20). -/
def State.loadResponse (st : Status) (w : RspWord idW holdW) (s : State sampleW idW holdW) : State sampleW idW holdW :=
  { s with rsp := w, rspValid := true, errors := recordStatus st s.errors }

/-- A command is performed only after the first reset edge; before it the model faults (70_reset_and_hazards.md R162). -/
def whenReset (s : State sampleW idW holdW) (r : Result sampleW idW holdW) : Result sampleW idW holdW :=
  if s.wasReset then r else .fault .commandBeforeReset

/-- `respond(st, x)` (00_scope.md R11, 30_encoding.md R87): the response carries `T[x]`'s outputs. -/
def respond (st : Status) (x : StateId idW) (s : State sampleW idW holdW) : Result sampleW idW holdW :=
  match s.engine.outputs? x with
  | some o => .next (s.loadResponse st (responseWord st x o))
  | none => .fault (.noSuchState x)

/-- `raise`: a response with an error status, `cur` kept (00_scope.md R11, 60_exceptions.md R136, R138, R140). -/
def raise (st : Status) (s : State sampleW idW holdW) : Result sampleW idW holdW := respond st s.cur s

/-- An accepted word that is illegal: answered ILLEGAL_COMMAND, with no other effect (60_exceptions.md R138). -/
def illegalCommand (s : State sampleW idW holdW) : Result sampleW idW holdW :=
  whenReset s (raise .illegalCommand s)

/-- A rising edge with `rst` = 1 (70_reset_and_hazards.md R160): `rsp` and the table are not written. -/
def State.resetEdge (s : State sampleW idW holdW) : State sampleW idW holdW :=
  { s with cur := s.engine.startId, rspValid := false, wasReset := true }

/-- A rising edge that accepts no command (30_encoding.md R78, R89): nothing changes except `rsp_valid`. -/
def State.idleEdge (s : State sampleW idW holdW) : State sampleW idW holdW := { s with rspValid := false }

/-- The port inputs of an edge at which the host presents nothing. -/
def PortIn.idle : PortIn sampleW := { rst := false, cmdValid := false, cmd := 0 }

/-- The port inputs of an edge at which the host presents the command word `w`. -/
def PortIn.command (w : CmdWord sampleW) : PortIn sampleW := { rst := false, cmdValid := true, cmd := w }

/-- The port inputs of an edge at which the host holds reset. -/
def PortIn.reset : PortIn sampleW := { rst := true, cmdValid := false, cmd := 0 }

/-- What stands on the input ports at the next edge; a host with no plan left presents nothing (notes/assumptions/1.md). -/
def State.presented (s : State sampleW idW holdW) : PortIn sampleW := s.inputs.headD PortIn.idle

/-- The host's plan past the next edge. -/
def State.advance (s : State sampleW idW holdW) : State sampleW idW holdW := { s with inputs := s.inputs.tail }

/-- The same machine with the command word `w` on the `cmd` port at the next edge, in place of what stood there. -/
def State.presentCommand (w : CmdWord sampleW) (s : State sampleW idW holdW) : State sampleW idW holdW :=
  { s with inputs := PortIn.command w :: s.inputs.tail }

end Sys2Proof.Machine
end

