-- ==== Sys2Proof/Machine/Controller.lean ====
section
/-!
DEFINITION. The controller operations NOP, INIT and OUTPUTS (40_controller_ops.md).
-/

namespace Sys2Proof.Machine

variable {sampleW idW holdW : Nat}

/-- NOP: `respond(OK, cur)`, `cur` not written (40_controller_ops.md R100). -/
def execNop (s : State sampleW idW holdW) : Result sampleW idW holdW :=
  whenReset s (respond .ok s.cur s)

/-- INIT: `cur <- START`, then `respond(OK, START)`, the previous state ignored entirely (40_controller_ops.md R102). -/
def execInit (s : State sampleW idW holdW) : Result sampleW idW holdW :=
  whenReset s (respond .ok s.engine.startId (s.writeCur s.engine.startId))

/-- OUTPUTS: `respond(OK, cur)`, a pure read (40_controller_ops.md R104). -/
def execOutputs (s : State sampleW idW holdW) : Result sampleW idW holdW :=
  whenReset s (respond .ok s.cur s)

end Sys2Proof.Machine
end

