-- ==== Sys2Proof/Machine/Operands.lean ====
section
/-!
DEFINITION. The one operand form: STEP's 8-bit sample (30_encoding.md R79), read as an input index (41_step.md R110) and as the
abstract integer of the source's contract (00_scope.md R12), and the packing of the three sensors (30_encoding.md R68 to R70).
The reading of a sample is defined at any `SAMPLE_W` (R7); the block uses it at 8.
-/

namespace Sys2Proof.Machine

variable {sampleW : Nat}

/-- The input index of a sample: `i = s[2:0]` when `s <= 7`, none when `s > 7` (41_step.md R110). -/
def sampleIndex (s : Sample sampleW) : Option InputIndex :=
  if h : s.toNat < 8 then some ⟨s.toNat, h⟩ else none

/-- The integer a sample stands for: for 8 bits, `s` up to 127 and `s - 256` from 128 (00_scope.md R12). DESIGN CHOICE: the spec
gives no other width's reading. The model reads 4 bits and more as two's complement and 3 bits and fewer as they stand, so that
at every width exactly the samples up to 7 stand for an integer in range (notes/assumptions/18.md). -/
def sampleInt (s : Sample sampleW) : Int :=
  if sampleW ≤ 3 ∨ s.toNat < 2 ^ (sampleW - 1) then (s.toNat : Int) else (s.toNat : Int) - 2 ^ sampleW

/-- The sample that carries an integer: for 8 bits, `n mod 256` (30_encoding.md R90). -/
def sampleOfInt (n : Int) (sampleW : Nat := Config.sampleW) : Sample sampleW := BitVec.ofInt sampleW n

/-- The sample of three sensor readings: bit 2 the pedestrian request, bit 1 sensor 1 (a car on approach S), bit 0 sensor 0
(a car on approach W) (30_encoding.md R68 to R70, 90_conflicts.md C1). -/
def packSensors (pedestrian carS carW : Bool) : Sample :=
  0#5 ++ BitVec.ofBool pedestrian ++ BitVec.ofBool carS ++ BitVec.ofBool carW

end Sys2Proof.Machine
end

