-- ==== Sys2Proof/Machine/StepCommand.lean ====
section
/-!
DEFINITION. The command STEP (41_step.md R110).
-/

namespace Sys2Proof.Machine

variable {sampleW idW holdW : Nat}

/-- STEP: out of range, raise OutOfRangeInput and read no table entry; in range, `cur <- T[cur].next[i]` and
`respond(OK, nxt)` (41_step.md R110, R111, 60_exceptions.md R136). -/
def execStep (sample : Sample sampleW) (s : State sampleW idW holdW) : Result sampleW idW holdW :=
  whenReset s <|
    match sampleIndex sample with
    | none => raise .outOfRangeInput s
    | some i =>
      match nextStateDecoder s.engine s.cur i with
      | some nxt => respond .ok nxt (s.writeCur nxt)
      | none => .fault (.noSuchState s.cur)

end Sys2Proof.Machine
end

