-- ==== Sys2Proof/Syntax.lean ====
section
/-!
DEFINITION. The four commands of the command interface, one constructor per row of spec/opcode_table.json, and the lines
of the command syntax (30_encoding.md R90).
-/

namespace Sys2Proof

/-- The commands of the block (30_encoding.md R80). A word that is none of them is illegal (R85): it is no command, and
`decode` rejects it by name. -/
inductive Instr (sampleW : Nat := Config.sampleW) where
  /-- NOP (40_controller_ops.md R100). -/
  | nop
  /-- INIT, the command form of `Initialize()` (40_controller_ops.md R102). -/
  | init
  /-- STEP with its sample operand, 8 bits for this hardware, the command form of `Step` (41_step.md R110). -/
  | step (sample : Sample sampleW)
  /-- OUTPUTS, the command form of `CurrentOutputs` (40_controller_ops.md R104). -/
  | outputs
deriving DecidableEq, Repr

/-- One line of the command syntax (30_encoding.md R90), after its text is read. -/
inductive AsmLine where
  | nop
  | init
  | outputs
  /-- `STEP <n>`, `n` as written. -/
  | step (n : Int)
  /-- `.cmd 0xHHHH`: the word itself. -/
  | raw (word : CmdWord)
deriving DecidableEq, Repr

end Sys2Proof
end

