-- ==== Sys2Proof/Machine/Dispatch.lean ====
section
/-!
DEFINITION. exec: one arm per command of the opcode table, each a direct call of its meaning.
-/

namespace Sys2Proof.Machine

/-- The meaning of a command performed at an accepting edge (30_encoding.md R78). -/
def exec (i : Instr) (s : State) : Host.Outcome State Fault Refusal :=
  match i with
  | .nop => Sys2Proof.Machine.execNop s
  | .init => Sys2Proof.Machine.execInit s
  | .step sample => Sys2Proof.Machine.execStep sample s
  | .outputs => Sys2Proof.Machine.execOutputs s

end Sys2Proof.Machine
end

