-- ==== Sys2Proof/Decode.lean ====
section
/-!
DEFINITION. The command word: its fields, the decoder (30_encoding.md R86), total on all 65536 words and rejecting by name,
and the encoder (R81 to R84).
-/

namespace Sys2Proof

variable {sampleW : Nat}

/-- `op`, bits [3:0] of a command word (30_encoding.md R79). -/
def opField (w : CmdWord sampleW) : BitVec 4 := w.extractLsb' 0 4

/-- `rsv`, bits [7:4] of a command word (30_encoding.md R79). -/
def rsvField (w : CmdWord sampleW) : BitVec 4 := w.extractLsb' 4 4

/-- `s`, the bits from 8 up, [15:8], of a command word (30_encoding.md R79). -/
def operandField (w : CmdWord sampleW) : Sample sampleW := w.extractLsb' 8 sampleW

/-- Why a word is illegal (30_encoding.md R85). The block answers every one of them the same way; the names are the
model's. -/
inductive IllegalWord where
  /-- R85 (b): `rsv` is not 0000. -/
  | reservedField
  /-- R85 (c): NOP, INIT or OUTPUTS with an operand that is not 0. -/
  | strayOperand
  /-- R85 (a): `op` is 0x4 to 0xF. -/
  | unknownOpcode
deriving DecidableEq, Repr

/-- A command that takes no operand: it is read only where the operand field is 0 (30_encoding.md R85 (c)). -/
def withoutOperand (w : CmdWord sampleW) (i : Instr sampleW) : Except IllegalWord (Instr sampleW) :=
  if operandField w = 0 then .ok i else .error .strayOperand

/-- The decoder, by the procedure of 30_encoding.md R86. -/
def decode (w : CmdWord sampleW) : Except IllegalWord (Instr sampleW) :=
  if rsvField w ≠ 0 then .error .reservedField
  else if opField w = 0x2#4 then .ok (.step (operandField w))
  else if opField w = 0x0#4 then withoutOperand w .nop
  else if opField w = 0x1#4 then withoutOperand w .init
  else if opField w = 0x3#4 then withoutOperand w .outputs
  else .error .unknownOpcode

/-- A command word from its three fields (30_encoding.md R79). -/
def commandWord (s : Sample sampleW) (rsv op : BitVec 4) : CmdWord sampleW := s ++ rsv ++ op

/-- The opcode of a command (30_encoding.md R80). -/
def Instr.opcode : Instr sampleW → BitVec 4
  | .nop => 0x0#4
  | .init => 0x1#4
  | .step _ => 0x2#4
  | .outputs => 0x3#4

/-- The operand field of a command: STEP's sample, 0 for every other command (30_encoding.md R79). -/
def Instr.operand : Instr sampleW → Sample sampleW
  | .nop => 0
  | .init => 0
  | .step s => s
  | .outputs => 0

/-- The encoder (30_encoding.md R81 to R84). -/
def encode (i : Instr sampleW) : CmdWord sampleW := commandWord i.operand 0x0#4 i.opcode

/-- The instruction the decoder reads from a table word, for the host: a command is one 16-bit word, presented whole on
the `cmd` port (30_encoding.md R75, R86), so bits above `nbits` are 0 and there is no byte order to lay out (20_memory.md R53). -/
def decodeTableWord (nbits w : Nat) : Option Instr :=
  (decode (BitVec.ofNat Config.cmdW (w % 2 ^ nbits))).toOption

end Sys2Proof
end

