-- ==== Sys2Proof/Machine/Edge.lean ====
section
/-!
DEFINITION. The meaning of a command at any choice of the widths, and what one rising edge of `clk` does with what stands on the input ports (30_encoding.md R78, 60_exceptions.md
R141, 70_reset_and_hazards.md R160, R161).
-/

namespace Sys2Proof.Machine

variable {sampleW idW holdW : Nat}

/-- The meaning of a command at any `SAMPLE_W`, `ID_W` and `HOLD_W` (00_scope.md R7); at this hardware's it is `exec`
(Laws/Exec.lean, exec_eq_perform). -/
def perform (i : Instr sampleW) (s : State sampleW idW holdW) : Result sampleW idW holdW :=
  match i with
  | .nop => execNop s
  | .init => execInit s
  | .step sample => execStep sample s
  | .outputs => execOutputs s

/-- An accepted word: the command it decodes to, or an illegal command (30_encoding.md R85, R86). -/
def acceptWord (w : CmdWord sampleW) (s : State sampleW idW holdW) : Result sampleW idW holdW :=
  match decode w with
  | .ok i => perform i s
  | .error _ => illegalCommand s

/-- One rising edge: reset first, then the command if one is presented, else nothing (60_exceptions.md R141,
30_encoding.md R78). -/
def clockEdge (p : PortIn sampleW) (s : State sampleW idW holdW) : Result sampleW idW holdW :=
  if p.rst then .next s.resetEdge
  else if p.cmdValid then acceptWord p.cmd s
  else .next s.idleEdge

/-- One rising edge with what the host presents at it: the head of `inputs` stands on the ports and is used up
(notes/assumptions/1.md). -/
def stepAt (s : State sampleW idW holdW) : Result sampleW idW holdW := clockEdge s.presented s.advance

end Sys2Proof.Machine
end

