-- ==== Sys2Proof/Machine/Step.lean ====
section
/-!
DEFINITION. One step of the machine is one rising edge of `clk` with what the host presents at it.
-/

namespace Sys2Proof.Machine

/-- One rising edge of this hardware. -/
def step (s : State) : Host.Outcome State Fault Refusal := stepAt s

/-- `s` with the table word `w` presented on the `cmd` port at the next edge, for the host (notes/assumptions/8.md). Reset
and the engine are left as they are: a command before the first reset has no meaning (70_reset_and_hazards.md R162). -/
def State.withFetchWord (s : State) (nbits w : Nat) : State :=
  s.presentCommand (BitVec.ofNat Config.cmdW (w % 2 ^ nbits))

end Sys2Proof.Machine
end

