-- ==== Sys2Proof/WellFormed.lean ====
section
/-!
DEFINITION. Well-formedness of syntax. Every term of `Instr` is well formed: the only operand is STEP's, and its type holds
exactly the 8 bits the command word has for it (30_encoding.md R79), so there is nothing to check. A line of the command
syntax can be ill formed in one way: a STEP number outside the range R90 gives.
-/

namespace Sys2Proof

/-- `STEP <n>` takes `n` in -128..255 (30_encoding.md R90); no other line has a number to check. -/
def AsmLine.wf : AsmLine → Bool
  | .nop => true
  | .init => true
  | .outputs => true
  | .step n => decide (-128 ≤ n ∧ n ≤ 255)
  | .raw _ => true

end Sys2Proof
end

