-- ==== Sys2Proof/Machine/Assembler.lean ====
section
/-!
DEFINITION. The command syntax (30_encoding.md R90): the word of a line, and the reading of a line of text. What R90 leaves
open of the text's form is in notes/assumptions/14.md. No mnemonic stands for more than one word.
-/

namespace Sys2Proof.Machine

/-- The word of a line; none for a STEP number out of the range of 30_encoding.md R90. -/
def assemble (line : AsmLine) : Option CmdWord :=
  if line.wf then
    match line with
    | .nop => some (encode .nop)
    | .init => some (encode .init)
    | .outputs => some (encode .outputs)
    | .step n => some (encode (.step (sampleOfInt n)))
    | .raw w => some w
  else none

/-- Why a line of text is no line of the syntax. -/
inductive AsmError where
  | unknownLine
  | badNumber
  | outOfRange
deriving DecidableEq, Repr

/-- The line up to the first `;`, which starts a comment. -/
def stripComment : List Char → List Char
  | [] => []
  | c :: cs => if c = ';' then [] else c :: stripComment cs

/-- A character that separates words. -/
def isBlank (c : Char) : Bool := c = ' ' || c = '\t'

/-- The words of a line; `acc` holds the word being read, reversed. -/
def splitWords (acc : List Char) : List Char → List (List Char)
  | [] => if acc.isEmpty then [] else [acc.reverse]
  | c :: cs =>
    if isBlank c then
      if acc.isEmpty then splitWords [] cs else acc.reverse :: splitWords [] cs
    else splitWords (c :: acc) cs

/-- The value of a decimal digit. -/
def decDigit (c : Char) : Option Nat :=
  if 48 ≤ c.toNat ∧ c.toNat ≤ 57 then some (c.toNat - 48) else none

/-- The value of a hexadecimal digit, of either case. -/
def hexDigit (c : Char) : Option Nat :=
  if 48 ≤ c.toNat ∧ c.toNat ≤ 57 then some (c.toNat - 48)
  else if 65 ≤ c.toNat ∧ c.toNat ≤ 70 then some (c.toNat - 55)
  else if 97 ≤ c.toNat ∧ c.toNat ≤ 102 then some (c.toNat - 87)
  else none

/-- The number a list of digits stands for, continuing from `acc`. -/
def digitsValue (base : Nat) (digit : Char → Option Nat) (acc : Nat) : List Char → Option Nat
  | [] => some acc
  | c :: cs =>
    match digit c with
    | some d => digitsValue base digit (acc * base + d) cs
    | none => none

/-- A decimal number: one digit or more. -/
def decimal (cs : List Char) : Option Nat := if cs.isEmpty then none else digitsValue 10 decDigit 0 cs

/-- A hexadecimal number of exactly `len` digits after `0x`. -/
def hexadecimal (len : Nat) : List Char → Option Nat
  | '0' :: 'x' :: ds => if ds.length = len then digitsValue 16 hexDigit 0 ds else none
  | _ => none

/-- The `<n>` of `STEP <n>`: decimal, with a minus sign or without, or `0x` and two hexadecimal digits. -/
def stepNumber (cs : List Char) : Option Int :=
  match cs with
  | '-' :: ds => (decimal ds).map fun k => -(k : Int)
  | '0' :: 'x' :: _ => (hexadecimal 2 cs).map fun k => (k : Int)
  | _ => (decimal cs).map fun k => (k : Int)

/-- The line that `STEP <n>` is, if its number is in range. -/
def stepLine (cs : List Char) : Except AsmError (Option AsmLine) :=
  match stepNumber cs with
  | none => .error .badNumber
  | some n => if (AsmLine.step n).wf then .ok (some (.step n)) else .error .outOfRange

/-- The line that `.cmd 0xHHHH` is. -/
def rawLine (cs : List Char) : Except AsmError (Option AsmLine) :=
  match hexadecimal 4 cs with
  | none => .error .badNumber
  | some w => .ok (some (.raw (BitVec.ofNat 16 w)))

/-- One line of text: a command, nothing (an empty line or a comment), or an error. -/
def parseLine (text : List Char) : Except AsmError (Option AsmLine) :=
  match splitWords [] (stripComment text) with
  | [] => .ok none
  | [['N', 'O', 'P']] => .ok (some .nop)
  | [['I', 'N', 'I', 'T']] => .ok (some .init)
  | [['O', 'U', 'T', 'P', 'U', 'T', 'S']] => .ok (some .outputs)
  | [['S', 'T', 'E', 'P'], n] => stepLine n
  | [['.', 'c', 'm', 'd'], w] => rawLine w
  | _ => .error .unknownLine

/-- A program text, one command per line: the words in order, or the first error. -/
def assembleText : List (List Char) → Except AsmError (List CmdWord)
  | [] => .ok []
  | line :: lines =>
    match parseLine line with
    | .error r => .error r
    | .ok none => assembleText lines
    | .ok (some l) =>
      match assemble l with
      | none => .error .outOfRange
      | some w =>
        match assembleText lines with
        | .error r => .error r
        | .ok ws => .ok (w :: ws)

end Sys2Proof.Machine
end

