-- ==== Sys2Proof/Machine/Contract.lean ====
section
/-!
DEFINITION. The public contract over abstract state identifiers and an integer input (00_scope.md R12): `Initialize`,
`CurrentOutputs` and `Step`, whose command forms are INIT, OUTPUTS and STEP. Claims compare the machine with it; the machine
does not use it. The contract is the same at any `ID_W` and `HOLD_W` (R7).
-/

namespace Sys2Proof.Machine

/-- The one error of a call (60_exceptions.md R136). -/
inductive CallError where
  | outOfRangeInput
deriving DecidableEq, Repr

variable {idW holdW : Nat}

/-- `Initialize() -> Controller` (40_controller_ops.md R102). -/
def contractInitialize (e : Engine idW holdW) : Fin e.n := e.start

/-- `CurrentOutputs(controller) -> (primaryLights, pedestrianLights, holdTicks)` (40_controller_ops.md R104). -/
def contractOutputs (e : Engine idW holdW) (c : Fin e.n) : Outputs holdW := e.rows[c.val].toOutputs

/-- `Step(controller, inputSample) -> Controller'`: exactly the integers 0 to 7 are in range (00_scope.md R12, 41_step.md
R110, R111). -/
def contractStep (e : Engine idW holdW) (c : Fin e.n) (i : Int) : Except CallError (Fin e.n) :=
  if h : 0 ≤ i ∧ i ≤ 7 then .ok (e.rows[c.val].next[i.toNat]'(by omega)) else .error .outOfRangeInput

/-- The controller a host holds after a list of calls of `Step`, a failing call returning no new controller
(60_exceptions.md R136). -/
def contractRun (e : Engine idW holdW) (c : Fin e.n) : List Int → Fin e.n
  | [] => c
  | i :: is =>
    match contractStep e c i with
    | .ok c' => contractRun e c' is
    | .error _ => contractRun e c is

end Sys2Proof.Machine
end

