-- ==== Sys2Proof/Machine/Ports.lean ====
section
/-!
DEFINITION. The output ports (30_encoding.md R75, R76, R89): a Moore function of `cur` alone, and the response as the host
may read it.
-/

namespace Sys2Proof.Machine

variable {sampleW idW holdW : Nat}

/-- What the continuous output ports carry in one cycle (30_encoding.md R75). -/
structure OutPorts (idW : Nat := Config.idW) (holdW : Nat := Config.holdW) extends Outputs holdW where
  state : StateId idW
deriving DecidableEq, Repr

/-- The output ports (10_state.md R42, 30_encoding.md R76). Before the first reset edge they may carry anything
(70_reset_and_hazards.md R162): there they are the argument `free`, which nothing constrains (notes/assumptions/5.md). -/
def State.outPorts (free : OutPorts idW holdW) (s : State sampleW idW holdW) : OutPorts idW holdW :=
  if s.wasReset then
    match s.engine.outputs? s.cur with
    | some o => { o with state := s.cur }
    | none => { free with state := s.cur }
  else free

/-- The response port: the word while `rsp_valid` = 1; while it is 0 a host must not read `rsp`
(93_implementation_defined.md I8). -/
def State.responsePort (s : State sampleW idW holdW) : Option (RspWord idW holdW) :=
  if s.rspValid then some s.rsp else none

end Sys2Proof.Machine
end

