-- ==== Sys2Proof/Machine/Driver.lean ====
section
/-!
DEFINITION. The host's side of the contract: the dwell rule (70_reset_and_hazards.md R166) as a check on a timed schedule of
port inputs, and the canonical host loop (R167 to R169). Time is the host's, in milliseconds; the engine has none (R113, R147).
-/

namespace Sys2Proof.Machine

variable {sampleW idW holdW : Nat}

/-- Port inputs at an edge, with the time of the edge in milliseconds. -/
structure TimedPort (sampleW : Nat := Config.sampleW) where
  time : Nat
  port : PortIn sampleW
deriving DecidableEq, Repr

/-- The time a state must be held: `T[x].hold` ticks of 10 ms (70_reset_and_hazards.md R166, R169). -/
def Outputs.holdMs (o : Outputs holdW) : Nat := Config.tickMs * o.hold.toNat

/-- The hold time of the state the machine is in; 0 where `cur` names no state. -/
def State.holdMs (s : State sampleW idW holdW) : Nat :=
  match s.engine.outputs? s.cur with
  | some o => o.holdMs
  | none => 0

/-- The command accepted at an edge with these port inputs, if one is and its word is legal. -/
def PortIn.command? (p : PortIn sampleW) : Option (Instr sampleW) :=
  if !p.rst && p.cmdValid then (decode p.cmd).toOption else none

/-- The host presents a STEP that the block accepts. DESIGN CHOICE: a STEP on `cmd` at an edge with `rst` = 1 is lost
(70_reset_and_hazards.md R161) and does not count as presenting one; R166 leaves that open (notes/assumptions/17.md). -/
def PortIn.presentsStep (p : PortIn sampleW) : Bool :=
  match p.command? with
  | some (.step _) => true
  | some .nop => false
  | some .init => false
  | some .outputs => false
  | none => false

/-- The block enters a state at this edge: by reset, INIT or a STEP that succeeds, also where the state is the one it was in
(70_reset_and_hazards.md R166, notes/assumptions/12.md). -/
def PortIn.entersState (p : PortIn sampleW) : Bool :=
  p.rst ||
    match p.command? with
    | some (.step v) => (sampleIndex v).isSome
    | some .init => true
    | some .nop => false
    | some .outputs => false
    | none => false

/-- The dwell rule on a schedule (70_reset_and_hazards.md R166): no STEP is presented before the hold time of the state the
block is in has passed since it entered it. `entered` is that time, `now` the time of the last edge. DESIGN CHOICE: a STEP answered
OUT_OF_RANGE_INPUT enters no state, so it neither uses up the elapsed hold time nor starts a new one, and the next STEP may follow
at once; R166 leaves that open (notes/assumptions/19.md). -/
def keepsDwell : (entered now : Nat) → List (TimedPort sampleW) → State sampleW idW holdW → Bool
  | _, _, [], _ => true
  | entered, now, p :: ps, s =>
    decide (now ≤ p.time) && (!p.port.presentsStep || decide (entered + s.holdMs ≤ p.time)) &&
      match clockEdge p.port s with
      | .next t => keepsDwell (if p.port.entersState then p.time else entered) p.time ps t
      | .fault _ => true
      | .refused _ => true

/-- What the host brings to one turn of its loop: how much longer than the hold time it waits, any time at all, since the wait
is a lower bound only (70_reset_and_hazards.md R174, 93_implementation_defined.md I12), and the sample it then takes. -/
structure TurnInput (sampleW : Nat := Config.sampleW) where
  extraMs : Nat
  sample : Sample sampleW
deriving DecidableEq, Repr

/-- One turn of the canonical host loop (70_reset_and_hazards.md R167): the masks driven to the lights, the wait, the sample
taken after it, and the time of the STEP. -/
structure Turn (sampleW : Nat := Config.sampleW) where
  primary : PrimaryMask
  ped : PedMask
  waitMs : Nat
  sample : Sample sampleW
  stepTime : Nat
deriving DecidableEq, Repr

/-- The STEP of a turn, as the engine sees it. -/
def Turn.timedPort (t : Turn sampleW) : TimedPort sampleW :=
  { time := t.stepTime, port := PortIn.command (encode (.step t.sample)) }

/-- The canonical host loop, from time `now`: read the outputs, drive them, wait `hold` ticks or longer, take the sample, STEP,
repeat (70_reset_and_hazards.md R167, R174). It ends with what the host brings, or where the engine gives no answer. DESIGN CHOICE:
R167 and R105 let the host read the outputs by an OUTPUTS command or from the output ports; this loop reads them from the ports, the
row of `cur`, and takes no OUTPUTS edge (notes/assumptions/22.md; hostLoop_after_outputs says that one would change no turn). -/
def hostLoop : (now : Nat) → List (TurnInput sampleW) → State sampleW idW holdW → List (Turn sampleW)
  | _, [], _ => []
  | now, v :: vs, s =>
    match s.engine.outputs? s.cur with
    | none => []
    | some o =>
      { primary := o.primary, ped := o.ped, waitMs := o.holdMs + v.extraMs, sample := v.sample,
        stepTime := now + (o.holdMs + v.extraMs) } ::
        match clockEdge (PortIn.command (encode (.step v.sample))) s with
        | .next t => hostLoop (now + (o.holdMs + v.extraMs)) vs t
        | .fault _ => []
        | .refused _ => []

end Sys2Proof.Machine
end

