-- ==== Sys2Proof/Machine/Instances.lean ====
section
/-!
DEFINITION. Several engine instances (20_memory.md R63, 60_exceptions.md R149): each its own state, command interface and
reset. A step of the group is one edge of one instance (notes/assumptions/15.md), and its fault ends the
group (notes/assumptions/21.md).
-/

namespace Sys2Proof.Machine

variable {sampleW idW holdW : Nat}

/-- One rising edge of instance `k` of a group. DESIGN CHOICE: where that edge faults (a command before the instance's own first
reset, 70_reset_and_hazards.md R162), the step of the whole group is that fault and no next state of the other instances is given;
R149 does not say what becomes of the group (notes/assumptions/21.md). -/
def stepInstance {m : Nat} (k : Fin m) (group : Vector (State sampleW idW holdW) m) :
    Host.Outcome (Vector (State sampleW idW holdW) m) (Fault idW) Refusal :=
  match stepAt group[k.val] with
  | .next t => .next (group.set k.val t)
  | .fault f => .fault f
  | .refused q => .refused q

end Sys2Proof.Machine
end

