-- ==== Sys2Proof/Machine/Response.lean ====
section
/-!
DEFINITION. The response as the host reads it back: the fields of 30_encoding.md R87, and a fault of the host's own where a
reserved field is not as the spec says (93_implementation_defined.md I8, I10).
-/

namespace Sys2Proof.Machine

variable {sampleW idW holdW : Nat}

/-- The fields of a response word (30_encoding.md R87). -/
structure Response (idW : Nat := Config.idW) (holdW : Nat := Config.holdW) extends Outputs holdW where
  status : Status
  state : StateId idW
deriving DecidableEq, Repr

/-- Why a host may not read a response. -/
inductive ResponseFault where
  /-- `rsp_valid` = 0: the host must not read `rsp` (93_implementation_defined.md I8). -/
  | notValid
  /-- Bits [3:2] are not 00 (93_implementation_defined.md I10). -/
  | reservedBits
  /-- Status 11 (93_implementation_defined.md I10). -/
  | reservedStatus
deriving DecidableEq, Repr

/-- The status a code stands for; 11 is reserved (30_encoding.md R88). -/
def statusOfCode (c : BitVec 2) : Option Status :=
  if c = 0b00#2 then some .ok
  else if c = 0b01#2 then some .outOfRangeInput
  else if c = 0b10#2 then some .illegalCommand
  else none

/-- The fields of a response word (30_encoding.md R87). -/
def readResponse (w : RspWord idW holdW) : Except ResponseFault (Response idW holdW) :=
  if w.extractLsb' 2 2 ≠ 0 then .error .reservedBits
  else
    match statusOfCode (w.extractLsb' 0 2) with
    | none => .error .reservedStatus
    | some st =>
      .ok { status := st, state := w.extractLsb' 4 idW, primary := w.extractLsb' (4 + idW) Config.primaryW,
            ped := w.extractLsb' (10 + idW) Config.pedW, hold := w.extractLsb' (12 + idW) holdW }

/-- What the host reads from the response port. -/
def State.hostRead (s : State sampleW idW holdW) : Except ResponseFault (Response idW holdW) :=
  match s.responsePort with
  | some w => readResponse w
  | none => .error .notValid

end Sys2Proof.Machine
end

