-- ==== Sys2Proof/Machine/Run.lean ====
section
/-!
DEFINITION. Runs (70_reset_and_hazards.md R175): a finite sequence of accepted commands, observed as the sequence of
responses and the final `cur`.
-/

namespace Sys2Proof.Machine

variable {sampleW idW holdW : Nat}

/-- Go on from a next state; stop where the first part stopped. -/
def andThen {α β : Type} (r : Host.Outcome α (Fault idW) Refusal) (k : α → Host.Outcome β (Fault idW) Refusal) :
    Host.Outcome β (Fault idW) Refusal :=
  match r with
  | .next a => k a
  | .fault f => .fault f
  | .refused q => .refused q

/-- The commands accepted one after another, each seeing the `cur` the one before left (20_memory.md R58). -/
def acceptWords : List (CmdWord sampleW) → State sampleW idW holdW → Result sampleW idW holdW
  | [], s => .next s
  | w :: ws, s => andThen (acceptWord w s) (acceptWords ws)

/-- `k` rising edges, each with what the host presents at it. -/
def runEdges : Nat → State sampleW idW holdW → Result sampleW idW holdW
  | 0, s => .next s
  | k + 1, s => andThen (stepAt s) (runEdges k)

/-- The edges of a list of port inputs, one after another, whatever the machine's own plan. -/
def edgesOn : List (PortIn sampleW) → State sampleW idW holdW → Result sampleW idW holdW
  | [], s => .next s
  | p :: ps, s => andThen (clockEdge p s) (edgesOn ps)

/-- What a run shows (70_reset_and_hazards.md R175). -/
structure Observation (idW : Nat := Config.idW) (holdW : Nat := Config.holdW) where
  responses : List (RspWord idW holdW)
  final : StateId idW
deriving DecidableEq, Repr

/-- The observation of a run of commands from `s` (70_reset_and_hazards.md R175). -/
def observeWords : List (CmdWord sampleW) → State sampleW idW holdW →
    Host.Outcome (Observation idW holdW) (Fault idW) Refusal
  | [], s => .next { responses := [], final := s.cur }
  | w :: ws, s =>
    andThen (acceptWord w s) fun t =>
      andThen (observeWords ws t) fun o => .next { o with responses := t.rsp :: o.responses }

/-- The host's plan set to present these words at the coming edges, one an edge. -/
def State.withCommands (ws : List (CmdWord sampleW)) (s : State sampleW idW holdW) : State sampleW idW holdW :=
  { s with inputs := ws.map PortIn.command }

end Sys2Proof.Machine
end

