-- ==== Sys2Proof/Machine/Construct.lean ====
section
/-!
DEFINITION. Table construction: BUILD and SERIALIZE (43_construction.md R120, R128), the image of this hardware's table
(30_encoding.md R95), and boot (70_reset_and_hazards.md R164). They run before the block exists and are no commands. The format of
the image is that of 30_encoding.md R91 to R93 at every choice of `ID_W` and `HOLD_W` (00_scope.md R7, notes/assumptions/20.md).
-/

namespace Sys2Proof.Machine

variable {idW holdW : Nat}

/-- The reasons of `InvalidTable` (43_construction.md R123). -/
inductive InvalidTable where
  | badLength
  | badCount
  | badStart
  | reservedBits
  | danglingNext
deriving DecidableEq, Repr

/-- The code of a reason (43_construction.md R123). -/
def InvalidTable.code : InvalidTable → Nat
  | .badLength => 1
  | .badCount => 2
  | .badStart => 3
  | .reservedBits => 4
  | .danglingNext => 5

/-- `Img[k]` (00_scope.md R11). BUILD reads only offsets below the length it has checked. -/
def byteAt (img : List Byte) (k : Nat) : Byte := img.getD k 0

/-- The byte offset of row `s` (30_encoding.md R91). -/
def rowOffset (s : Nat) : Nat := 2 + 14 * s

/-- The length of a legal image of `n` rows (30_encoding.md R94). -/
def imageLength (n : Nat) : Nat := 2 + 14 * n

/-- `le32`: `b0 + 256*b1 + 65536*b2 + 16777216*b3` (00_scope.md R11). -/
def le32 (b0 b1 b2 b3 : Byte) : BitVec 32 := b3 ++ b2 ++ b1 ++ b0

/-- The four bytes of a hold, least significant first (20_memory.md R53). -/
def holdBytes (h : BitVec 32) : List Byte :=
  [h.extractLsb' 0 8, h.extractLsb' 8 8, h.extractLsb' 16 8, h.extractLsb' 24 8]

/-- The results of `f` at 0, 1, ... in ascending order, or the first error met in that order. -/
def collect {α : Type} : (m : Nat) → (Fin m → Except InvalidTable α) → Except InvalidTable (Vector α m)
  | 0, _ => .ok #v[]
  | m + 1, f =>
    match collect m (fun i => f i.castSucc) with
    | .error r => .error r
    | .ok v =>
      match f (Fin.last m) with
      | .error r => .error r
      | .ok x => .ok (v.push x)

/-- The four bytes of `hold` of a row at offset `b` (43_construction.md R120). -/
def holdField (img : List Byte) (b : Nat) : BitVec 32 :=
  le32 (byteAt img (b + 2)) (byteAt img (b + 3)) (byteAt img (b + 4)) (byteAt img (b + 5))

/-- A mask byte of a row at offset `b` has a bit set outside its field (43_construction.md R120); or, where `HOLD_W` is below 32,
its hold has one, for a narrower field rejects what it cannot hold (92_eei_decisions.md D9, notes/assumptions/20.md). -/
def reservedSet (holdW : Nat) (img : List Byte) (b : Nat) : Bool :=
  (byteAt img b).extractLsb' 6 2 != 0 || (byteAt img (b + 1)).extractLsb' 2 6 != 0 ||
    decide (2 ^ holdW ≤ (holdField img b).toNat)

/-- Successor `i` of the row at offset `b`; refused when it is not below `n` (43_construction.md R120, R121). -/
def readNext (n : Nat) (img : List Byte) (b : Nat) (i : Fin 8) : Except InvalidTable (Fin n) :=
  if h : (byteAt img (b + 6 + i.val)).toNat < n then .ok ⟨(byteAt img (b + 6 + i.val)).toNat, h⟩
  else .error .danglingNext

/-- Row `s` of an image of `n` rows: the reserved bits are checked before the successors, these in ascending order
(43_construction.md R120, R123). -/
def readRow (holdW n : Nat) (img : List Byte) (s : Fin n) : Except InvalidTable (Row n holdW) :=
  if reservedSet holdW img (rowOffset s.val) then .error .reservedBits
  else
    match collect 8 (readNext n img (rowOffset s.val)) with
    | .error r => .error r
    | .ok next =>
      .ok { primary := (byteAt img (rowOffset s.val)).extractLsb' 0 6,
            ped := (byteAt img (rowOffset s.val + 1)).extractLsb' 0 2,
            hold := (holdField img (rowOffset s.val)).setWidth holdW,
            next := next }

/-- BUILD past its header bytes `N` = `n` and `START` = `st`: the checks of 43_construction.md R120 in the order written
there, then the engine. -/
def buildWith (n st : Nat) (img : List Byte) : Except InvalidTable (Engine idW holdW) :=
  if hn : 1 ≤ n ∧ n ≤ 2 ^ idW then
    if img.length = imageLength n then
      if hst : st < n then
        match collect n (readRow holdW n img) with
        | .error r => .error r
        | .ok rows => .ok { n := n, nPos := hn.1, nMax := hn.2, start := ⟨st, hst⟩, rows := rows }
      else .error .badStart
    else .error .badLength
  else .error .badCount

/-- BUILD (43_construction.md R120): one engine from a table image, or the reason and no engine at all (R124). -/
def build (img : List Byte) (idW : Nat := Config.idW) (holdW : Nat := Config.holdW) : Except InvalidTable (Engine idW holdW) :=
  if img.length < 2 then .error .badLength
  else buildWith (byteAt img 0).toNat (byteAt img 1).toNat img

/-- The 14 bytes of a row (30_encoding.md R93, 43_construction.md R128). -/
def rowBytes {n : Nat} (r : Row n holdW) : List Byte :=
  [r.primary.setWidth 8, r.ped.setWidth 8] ++ holdBytes (r.hold.setWidth 32) ++ r.next.toList.map (fun k => BitVec.ofNat 8 k.val)

/-- SERIALIZE (43_construction.md R128): it reads no `cur` and cannot fail. -/
def serialize (e : Engine idW holdW) : List Byte :=
  [BitVec.ofNat 8 e.n, BitVec.ofNat 8 e.start.val] ++ e.rows.toList.flatMap rowBytes

/-- Header and rows 0 to 3 of this hardware's image (30_encoding.md R95). -/
def imageDriving : List Byte := [
  0x09#8, 0x00#8,
  0x0C#8, 0x01#8, 0x64#8, 0x00#8, 0x00#8, 0x00#8, 0x00#8, 0x00#8, 0x01#8, 0x01#8, 0x01#8, 0x01#8, 0x01#8, 0x01#8,
  0x14#8, 0x01#8, 0x32#8, 0x00#8, 0x00#8, 0x00#8, 0x02#8, 0x02#8, 0x02#8, 0x02#8, 0x04#8, 0x04#8, 0x04#8, 0x04#8,
  0x21#8, 0x01#8, 0x64#8, 0x00#8, 0x00#8, 0x00#8, 0x03#8, 0x03#8, 0x02#8, 0x02#8, 0x03#8, 0x03#8, 0x03#8, 0x03#8,
  0x22#8, 0x01#8, 0x32#8, 0x00#8, 0x00#8, 0x00#8, 0x00#8, 0x00#8, 0x00#8, 0x00#8, 0x04#8, 0x04#8, 0x04#8, 0x04#8]

/-- Rows 4 to 8 of this hardware's image (30_encoding.md R95). -/
def imagePedestrian : List Byte := [
  0x24#8, 0x02#8, 0x64#8, 0x00#8, 0x00#8, 0x00#8, 0x04#8, 0x05#8, 0x05#8, 0x05#8, 0x04#8, 0x05#8, 0x05#8, 0x05#8,
  0x24#8, 0x01#8, 0x14#8, 0x00#8, 0x00#8, 0x00#8, 0x06#8, 0x06#8, 0x06#8, 0x06#8, 0x06#8, 0x06#8, 0x06#8, 0x06#8,
  0x24#8, 0x00#8, 0x14#8, 0x00#8, 0x00#8, 0x00#8, 0x07#8, 0x07#8, 0x07#8, 0x07#8, 0x07#8, 0x07#8, 0x07#8, 0x07#8,
  0x24#8, 0x01#8, 0x14#8, 0x00#8, 0x00#8, 0x00#8, 0x08#8, 0x08#8, 0x08#8, 0x08#8, 0x08#8, 0x08#8, 0x08#8, 0x08#8,
  0x24#8, 0x00#8, 0x14#8, 0x00#8, 0x00#8, 0x00#8, 0x00#8, 0x00#8, 0x02#8, 0x00#8, 0x04#8, 0x00#8, 0x02#8, 0x00#8]

/-- The 128 bytes of this hardware's image (30_encoding.md R95). -/
def thisImage : List Byte := imageDriving ++ imagePedestrian

/-- Boot (70_reset_and_hazards.md R164): BUILD, then one edge with `rst` = 1. `cur`, `rsp` and `rspValid` are what the
registers hold before it, which the spec leaves open (R162). -/
def boot (img : List Byte) (cur : StateId idW) (rsp : RspWord idW holdW) (rspValid : Bool)
    (sampleW : Nat := Config.sampleW) : Except InvalidTable (State sampleW idW holdW) :=
  match build img idW holdW with
  | .error r => .error r
  | .ok e => .ok (State.powerOn e cur rsp rspValid sampleW).resetEdge

end Sys2Proof.Machine
end

