-- ==== Sys2Proof/Machine/Lights.lean ====
section
/-!
DEFINITION. The lights a mask stands for (30_encoding.md R71 to R74). The engine copies masks and never reads their bits; only
the host, and claims about lights, use these. The layout is an argument (00_scope.md R7, 93_implementation_defined.md I4), and
this hardware's layouts are named.
-/

namespace Sys2Proof.Machine

/-- `PRIMARY_LAYOUT` of this hardware: bits 5, 4, 3 are W red, yellow, green; bits 2, 1, 0 are S red, yellow, green
(30_encoding.md R72). Listed from bit 0. -/
def primaryLayout : Config.PrimaryLayout :=
  { light := #v[(.s, .green), (.s, .yellow), (.s, .red), (.w, .green), (.w, .yellow), (.w, .red)] }

/-- `PED_LAYOUT` of this hardware: bit 1 walk, bit 0 don't-walk (30_encoding.md R73). Listed from bit 0. -/
def pedLayout : Config.PedLayout := { light := #v[.dontWalk, .walk] }

/-- A light of an approach is lit: its bit is 1 (30_encoding.md R74). -/
def lightLit (layout : Config.PrimaryLayout) (mask : PrimaryMask) (a : Approach) (c : Colour) : Bool :=
  (List.finRange 6).any fun k => mask.getLsb k && layout.light[k.val] == (a, c)

/-- A pedestrian light is lit: its bit is 1 (30_encoding.md R73, R74). -/
def pedLit (layout : Config.PedLayout) (mask : PedMask) (p : PedLight) : Bool :=
  (List.finRange 2).any fun k => mask.getLsb k && layout.light[k.val] == p

/-- The approach shows exactly the light `c`. -/
def shows (layout : Config.PrimaryLayout) (mask : PrimaryMask) (a : Approach) (c : Colour) : Bool :=
  [Colour.red, .yellow, .green].all fun d => lightLit layout mask a d == (d == c)

/-- The pedestrian lights show exactly `p`, or are both dark where `p` is none. -/
def pedShows (layout : Config.PedLayout) (mask : PedMask) (p : Option PedLight) : Bool :=
  [PedLight.walk, .dontWalk].all fun q => pedLit layout mask q == (some q == p)

end Sys2Proof.Machine
end

