-- ==== Sys2Proof/Safety.lean ====
section
/-!
DEFINITION. The terms claims use: the invariant every edge keeps, an outcome that is no stop, lights that give no two movements
the way at once, and the spec's own words for illegal command words, faulty images and this hardware's rows, written again from
the rules and not from the operations that claims compare with them.
-/

namespace Sys2Proof.Machine

variable {sampleW idW holdW : Nat}

/-- A state in which every command has a meaning: the block has been reset (70_reset_and_hazards.md R162) and `cur` names a
state (10_state.md R21). -/
abbrev State.Legal (s : State sampleW idW holdW) : Prop := s.wasReset = true ∧ s.cur.toNat < s.engine.n

/-- The row of the state the block is in. -/
abbrev State.row (s : State sampleW idW holdW) (h : s.Legal) : Row s.engine.n holdW := s.engine.rows[s.cur.toNat]'h.2

/-- The outputs of the state the block is in. -/
abbrev State.outputs (s : State sampleW idW holdW) (h : s.Legal) : Outputs holdW := (s.row h).toOutputs

/-- The response register holds a response of the state the block is in (30_encoding.md R87): some status, then `cur` and
its row's outputs. -/
def State.rspAgrees (s : State sampleW idW holdW) : Bool :=
  match s.engine.outputs? s.cur with
  | some o => [Status.ok, .outOfRangeInput, .illegalCommand].any fun st => s.rsp == responseWord st s.cur o
  | none => false

/-- The invariant: after a reset `cur` names a state (10_state.md R22), and while `rsp_valid` = 1 the response is that of the
state the block is in (30_encoding.md R87, 70_reset_and_hazards.md R171). -/
abbrev State.Inv (s : State sampleW idW holdW) : Prop :=
  s.wasReset = true → s.cur.toNat < s.engine.n ∧ (s.rspValid = true → s.rspAgrees = true)

/-- An outcome that is a next state. -/
def isNext {α φ ρ : Type} : Host.Outcome α φ ρ → Bool
  | .next _ => true
  | .fault _ => false
  | .refused _ => false

/-- 30_encoding.md R85: (a) `op` is 0x4 to 0xF, or (b) `rsv` is not 0000, or (c) `op` is NOP, INIT or OUTPUTS and `s` is
not 0. -/
abbrev IllegalByRule (w : CmdWord sampleW) : Prop :=
  4 ≤ (w.extractLsb' 0 4).toNat ∨ w.extractLsb' 4 4 ≠ 0#4 ∨
    ((w.extractLsb' 0 4 = 0x0#4 ∨ w.extractLsb' 0 4 = 0x1#4 ∨ w.extractLsb' 0 4 = 0x3#4) ∧ w.extractLsb' 8 sampleW ≠ 0)

/-- The status code of the response to an accepted word (30_encoding.md R88), by the list of 60_exceptions.md R141 (2) to (4). -/
def statusByRule (w : CmdWord sampleW) : BitVec 2 :=
  if IllegalByRule w then 0b10#2
  else if w.extractLsb' 0 4 = 0x2#4 ∧ 7 < (w.extractLsb' 8 sampleW).toNat then 0b01#2
  else 0b00#2

/-- A command is presented and accepted at the next edge (30_encoding.md R78). -/
abbrev State.accepting (s : State sampleW idW holdW) : Prop := s.presented.rst = false ∧ s.presented.cmdValid = true

/-- The header of an image is legal: its length, `N` and `START` (30_encoding.md R92, R94). -/
abbrev HeaderLegal (img : List Byte) : Prop :=
  2 ≤ img.length ∧ 1 ≤ (byteAt img 0).toNat ∧ (byteAt img 0).toNat ≤ 16 ∧
    img.length = 2 + 14 * (byteAt img 0).toNat ∧ (byteAt img 1).toNat < (byteAt img 0).toNat

/-- Row `s` of an image has a mask byte with a bit outside its field (30_encoding.md R93). -/
abbrev RowReserved (img : List Byte) (s : Nat) : Prop :=
  64 ≤ (byteAt img (2 + 14 * s)).toNat ∨ 4 ≤ (byteAt img (2 + 14 * s + 1)).toNat

/-- Row `s` of an image has a successor that is not below `N` (30_encoding.md R93). -/
abbrev RowDangling (img : List Byte) (s : Nat) : Prop :=
  ∃ i : Fin 8, (byteAt img 0).toNat ≤ (byteAt img (2 + 14 * s + 6 + i.val)).toNat

/-- Row `s` of an image is legal (30_encoding.md R93). -/
abbrev RowLegal (img : List Byte) (s : Nat) : Prop := ¬RowReserved img s ∧ ¬RowDangling img s

/-- An approach has the way: its red light is not lit. -/
def hasWay (layout : Config.PrimaryLayout) (mask : PrimaryMask) (a : Approach) : Bool := !lightLit layout mask a .red

/-- The lights give at most one movement the way: not both approaches, and no approach while the walk light is lit. -/
def safeLights (pl : Config.PrimaryLayout) (dl : Config.PedLayout) (primary : PrimaryMask) (ped : PedMask) : Bool :=
  !(hasWay pl primary .w && hasWay pl primary .s) &&
    (!pedLit dl ped .walk || (!hasWay pl primary .w && !hasWay pl primary .s))

/-- What a named state shows: approach W, approach S, the pedestrian lights (none: both dark), and its hold in milliseconds
(10_state.md R40, R41; S in waitW and W in waitS by the spec's decision D8). -/
def describedOutputs : StateName → Colour × Colour × Option PedLight × Nat
  | .goW => (.green, .red, some .dontWalk, 1000)
  | .waitW => (.yellow, .red, some .dontWalk, 500)
  | .goS => (.red, .green, some .dontWalk, 1000)
  | .waitS => (.red, .yellow, some .dontWalk, 500)
  | .goPed => (.red, .red, some .walk, 1000)
  | .flashON1 => (.red, .red, some .dontWalk, 200)
  | .flashOFF1 => (.red, .red, none, 200)
  | .flashON2 => (.red, .red, some .dontWalk, 200)
  | .flashOFF2 => (.red, .red, none, 200)

/-- The successor of a named state, by the sensors (10_state.md R31 to R39 in words; goW with W traffic alone, waitW, goS,
waitS without a pedestrian and flashOFF2 are the spec's readings and decisions D10 to D14). -/
def describedNext (x : StateName) (pedestrian carS carW : Bool) : StateName :=
  match x with
  | .goW => if pedestrian || carS then .waitW else .goW
  | .waitW => if pedestrian then .goPed else .goS
  | .goS => if carS && !pedestrian then .goS else .waitS
  | .waitS => if pedestrian then .goPed else .goW
  | .goPed => if carS || carW then .flashON1 else .goPed
  | .flashON1 => .flashOFF1
  | .flashOFF1 => .flashON2
  | .flashON2 => .flashOFF2
  | .flashOFF2 => if carW then .goW else if carS then .goS else if pedestrian then .goPed else .goW

end Sys2Proof.Machine
end

