-- ==== Sys2Proof/Certificates/Slice0/Obligations.lean ====
section
/-!
DEFINITION. The statements for the provers. Each docstring names the rules of spec/ the statement formalises. A rule the spec
marks [decision ...] is a choice of the spec's for this hardware and counts as its rule; a rule it marks [derived ...], or calls
its own reading, is not, and a statement on one has basis 'derived'. The field `errors` is the model's own record (D20), the
field `inputs` the host's plan (log entry 1), `wasReset` the model's memory of the first reset edge (log entry 3); a `Legal` state is one after a reset
in which `cur` names a state.
-/

open Sys2Proof Sys2Proof.Machine

/-! ## Encoding -/

/-- R81 to R84: the words of the four commands. -/
def Obligations.CommandsEncodeAsWritten : Prop :=
  encode (.nop : Instr) = 0x0000#16 ∧ encode (.init : Instr) = 0x0001#16 ∧ (∀ v : Sample, encode (.step v) = v ++ 0x02#8) ∧
    encode (.outputs : Instr) = 0x0003#16

/-- R80 to R84, words written out bit by bit and what they stand for; the last three are illegal by R85. -/
def Obligations.WordsWrittenOutDecode : Prop :=
  decode (0b0000000000000000 : CmdWord) = .ok .nop ∧ decode (0b0000000000000001 : CmdWord) = .ok .init ∧
    decode (0b0000000000000011 : CmdWord) = .ok .outputs ∧ decode (0b0000010000000010 : CmdWord) = .ok (.step 4) ∧
    decode (0b1111111100000010 : CmdWord) = .ok (.step 255) ∧ decode (0b0000000000000100 : CmdWord) = .error .unknownOpcode ∧
    decode (0b1111111100010010 : CmdWord) = .error .reservedField ∧ decode (0b0000000100000001 : CmdWord) = .error .strayOperand

/-- R79 to R86: every command is read back from its word. -/
def Obligations.DecodeInvertsEncode : Prop := ∀ i : Instr, decode (encode i) = .ok i

/-- R79 to R86: every word that decodes is the word of what it decodes to, so no bit of a legal word is dropped. -/
def Obligations.EncodeInvertsDecode : Prop := ∀ (w : CmdWord) (i : Instr), decode w = .ok i → encode i = w

/-- R85, R86: the decoder rejects exactly the illegal words. -/
def Obligations.DecodeRejectsExactlyIllegalWords : Prop :=
  ∀ w : CmdWord, (∃ r, decode w = .error r) ↔ IllegalByRule w

/-- opcode_table.json: a word decodes to a row's command exactly when it agrees with the row's match under its mask. -/
def Obligations.TableRowsMatchUnderTheirMasks : Prop :=
  ∀ w : CmdWord,
    (decode w = .ok .nop ↔ w &&& 0xFFFF#16 = 0x0000#16) ∧
    (decode w = .ok .init ↔ w &&& 0xFFFF#16 = 0x0001#16) ∧
    (∀ v : Sample, decode w = .ok (.step v) ↔ w &&& 0x00FF#16 = 0x0002#16 ∧ v = w.extractLsb' 8 8) ∧
    (decode w = .ok .outputs ↔ w &&& 0xFFFF#16 = 0x0003#16)

/-- R12 (D5): the integer a sample stands for, and exactly 0 to 7 in range in both readings; -1 is carried as 0xFF. -/
def Obligations.SampleReadAsInteger : Prop :=
  ∀ v : Sample,
    (v.toNat ≤ 127 → sampleInt v = v.toNat) ∧ (128 ≤ v.toNat → sampleInt v = v.toNat - 256) ∧
      sampleOfInt (sampleInt v) = v ∧ ((0 ≤ sampleInt v ∧ sampleInt v ≤ 7) ↔ v.toNat ≤ 7) ∧
      ((sampleIndex v).isSome = true ↔ v.toNat ≤ 7) ∧ sampleOfInt (-1) = 0xFF#8

/-- R90 (D34): `STEP <n>` assembles for exactly the numbers -128 to 255, to a word whose operand is `n mod 256`. -/
def Obligations.StepLineAssembles : Prop :=
  ∀ n : Int,
    (-128 ≤ n ∧ n ≤ 255 →
      ∃ w v, assemble (.step n) = some w ∧ decode w = .ok (.step v) ∧ (v.toNat : Int) = n % 256) ∧
      (n < -128 ∨ 255 < n → assemble (.step n) = none)

/-- R90: `;` starts a comment, whatever follows it on the line. -/
def Obligations.CommentIsIgnored : Prop :=
  ∀ text comment : List Char, parseLine (text ++ ';' :: comment) = parseLine text

/-! ## The four commands -/

/-- R100 (D18): NOP answers OK with `cur` and changes nothing else; no other word is a NOP, and every other word with its opcode is
illegal. -/
def Obligations.NopAnswersInPlace : Prop :=
  (∀ (s : State) (h : s.Legal),
    exec .nop s = .next { s with rsp := responseWord .ok s.cur (s.outputs h), rspValid := true }) ∧
    ∀ w : CmdWord,
      (decode w = .ok .nop ↔ w = 0x0000#16) ∧
        (w.extractLsb' 0 4 = 0x0#4 → w ≠ 0x0000#16 → ∃ r, decode w = .error r)

/-- R102: INIT moves to `START` from any state after a reset, and answers OK with it. It ignores the previous state entirely, so
it asks nothing of `cur`. `START` is 0 for this hardware. That INIT runs also where `cur` names no state is the model's reading
(log entry 4; I9 can be read as a fault there). -/
def Obligations.InitGoesToStart : Prop :=
  (∀ s : State, s.wasReset = true →
    exec .init s = .next { s with cur := s.engine.startId, rsp := responseWord .ok s.engine.startId s.engine.rows[s.engine.start.val].toOutputs,
                                  rspValid := true }) ∧
    encode (.init : Instr) = 0x0001#16 ∧ thisEngine.startId = 0

/-- R104: OUTPUTS answers OK with the current state's outputs and changes nothing else, any number of times in a row. -/
def Obligations.OutputsIsAPureRead : Prop :=
  (∀ (s : State) (h : s.Legal),
    exec .outputs s = .next { s with rsp := responseWord .ok s.cur (s.outputs h), rspValid := true }) ∧
    ∀ (s : State) (h : s.Legal) (k : Nat),
      acceptWords (List.replicate (k + 1) (encode .outputs)) s =
        .next { s with rsp := responseWord .ok s.cur (s.outputs h), rspValid := true }

/-- R110, R111: in range, STEP moves to `T[cur].next[s]` and answers OK with it; out of range, it answers OUT_OF_RANGE_INPUT and
keeps `cur`. 7 is in range and 8 is not. What the model's own record becomes is left open here (log entry 6). -/
def Obligations.StepLooksUpTheTable : Prop :=
  ∀ (s : State) (h : s.Legal) (v : Sample),
    (∀ hv : v.toNat < 8,
      exec (.step v) s =
        .next { s with cur := stateCode (s.row h).next[v.toNat],
                       rsp := responseWord .ok (stateCode (s.row h).next[v.toNat]) s.engine.rows[(s.row h).next[v.toNat].val].toOutputs,
                       rspValid := true }) ∧
      (8 ≤ v.toNat →
        ∃ record : List Status,
          exec (.step v) s =
            .next { s with rsp := responseWord .outOfRangeInput s.cur (s.outputs h), rspValid := true, errors := record }) ∧
      encode (.step v) = v ++ 0x02#8

/-- R114, R140, R125: what a command leaves as it was, whenever it answers: the table (the block's only memory, so every read of it),
the host's plan and the reset memory always, and `cur` but for INIT and a STEP in range. -/
def Obligations.CommandFrame : Prop :=
  ∀ (i : Instr) (s t : State), exec i s = .next t →
    t.engine = s.engine ∧ t.wasReset = s.wasReset ∧ t.inputs = s.inputs ∧ t.rspValid = true ∧
      (i = .nop ∨ i = .outputs ∨ (∃ v : Sample, i = .step v ∧ 7 < v.toNat) → t.cur = s.cur) ∧
      (i = .nop ∨ i = .outputs ∨ i = .init ∨ (∃ v : Sample, i = .step v ∧ v.toNat ≤ 7) → t.errors = s.errors)

/-- R162 (I7) and R66 (I9), the model's stops (log entries 3 and 4): before the first reset edge every command faults; after it, where
`cur` names no state, every command but INIT faults, INIT needing nothing of `cur` (R102). -/
def Obligations.CommandsStopOnlyWithoutAState : Prop :=
  ∀ (i : Instr) (s : State),
    (s.wasReset = false → exec i s = .fault .commandBeforeReset) ∧
      (s.wasReset = true → s.engine.n ≤ s.cur.toNat → i ≠ .init → exec i s = .fault (.noSuchState s.cur)) ∧
      (s.Legal → isNext (exec i s) = true)

/-- R103, R165: INIT leaves `cur` and the output ports as a reset edge does, and differs in producing a response. On this hardware
they are goW's. -/
def Obligations.InitAgreesWithReset : Prop :=
  ∀ (s t : State) (free : OutPorts), exec .init s = .next t →
    t.cur = s.resetEdge.cur ∧ t.outPorts free = s.resetEdge.outPorts free ∧ t.rspValid = true ∧ s.resetEdge.rspValid = false ∧
      (s.engine = thisEngine → t.outPorts free = { state := 0, primary := 0x0C, ped := 0b01, hold := 100 })

/-! ## Edges -/

/-- R78, R86: at an edge that accepts a word, the step is the decoded command's effect, with the edge's port inputs used up. -/
def Obligations.EdgeRunsDecodedCommand : Prop :=
  ∀ (s : State) (i : Instr), s.accepting → decode s.presented.cmd = .ok i → step s = exec i s.advance

/-- R138 (D22): an accepted illegal word is answered ILLEGAL_COMMAND, with no other effect, and leaves a state in which the next
command is performed normally. What the model's own record becomes is left open here (log entry 6). -/
def Obligations.IllegalWordAnsweredInPlace : Prop :=
  ∀ (s : State) (h : s.Legal), s.accepting → IllegalByRule s.presented.cmd →
    ∃ (t : State) (record : List Status), step s = .next t ∧ t.Legal ∧
      t = { s.advance with rsp := responseWord .illegalCommand s.cur (s.outputs h), rspValid := true, errors := record }

/-- R160, R161 (D2, D33): an edge with `rst` = 1 sets `cur` to `START` and `rsp_valid` to 0, leaves `rsp` and the table, and
loses whatever command is presented, in every state; a second such edge repeats the effect. `START` is goW, 0, for this hardware.
`wasReset` is the model's memory that the edge happened (log entry 3). -/
def Obligations.ResetEdgeGoesToStart : Prop :=
  (∀ s : State, s.presented.rst = true →
    step s = .next { s.advance with cur := s.engine.startId, rspValid := false, wasReset := true } ∧
      s.resetEdge.resetEdge = s.resetEdge) ∧
    thisEngine.startId = StateName.goW.code ∧ StateName.goW.code = 0

/-- R78, R101: an edge that accepts nothing changes only `rsp_valid`. Before the first reset edge, where the rules do not hold yet
(R164), this is the model's choice (log entry 7). -/
def Obligations.IdleEdgeOnlyDropsValid : Prop :=
  ∀ s : State, s.presented.rst = false → s.presented.cmdValid = false →
    step s = .next { s.advance with rspValid := false }

/-- R162 (D30): a command, legal or illegal, accepted before the first reset edge is a fault, and the output ports may carry
anything then. -/
def Obligations.CommandBeforeResetFaults : Prop :=
  ∀ s : State, s.wasReset = false →
    (s.accepting → step s = .fault .commandBeforeReset) ∧ ∀ free : OutPorts, s.outPorts free = free

/-- R87, R88 (D19, D20): the answer to every accepted word, legal or illegal, field by field. -/
def Obligations.ResponseLayoutOfEveryAnswer : Prop :=
  ∀ s : State, s.Legal → s.accepting →
    ∃ t, step s = .next t ∧ t.rspValid = true ∧
      ∃ h : t.Legal,
        t.rsp.extractLsb' 0 2 = statusByRule s.presented.cmd ∧ t.rsp.extractLsb' 2 2 = 0b00#2 ∧ t.rsp.extractLsb' 4 4 = t.cur ∧
          t.rsp.extractLsb' 8 6 = (t.row h).primary ∧ t.rsp.extractLsb' 14 2 = (t.row h).ped ∧
          t.rsp.extractLsb' 16 32 = (t.row h).hold

/-- R141, R88 (D20, D23): reset decides first, then the illegal word, then the sample out of range, else OK. -/
def Obligations.FirstConditionDecidesStatus : Prop :=
  ∀ s : State, s.Legal →
    (s.presented.rst = true → ∃ t, step s = .next t ∧ t.rspValid = false) ∧
      (s.accepting → IllegalByRule s.presented.cmd →
        ∃ t, step s = .next t ∧ t.rspValid = true ∧ t.rsp.extractLsb' 0 2 = 0b10#2) ∧
      (s.accepting → ¬IllegalByRule s.presented.cmd →
        s.presented.cmd.extractLsb' 0 4 = 0x2#4 → 7 < (s.presented.cmd.extractLsb' 8 8).toNat →
        ∃ t, step s = .next t ∧ t.rspValid = true ∧ t.rsp.extractLsb' 0 2 = 0b01#2) ∧
      (s.accepting → ¬IllegalByRule s.presented.cmd →
        ¬(s.presented.cmd.extractLsb' 0 4 = 0x2#4 ∧ 7 < (s.presented.cmd.extractLsb' 8 8).toNat) →
        ∃ t, step s = .next t ∧ t.rspValid = true ∧ t.rsp.extractLsb' 0 2 = 0b00#2)

/-- R89 (D24): the edge that accepts a command loads `rsp` with that command's response and sets `rsp_valid`; every other edge
clears `rsp_valid` and keeps `rsp`. For an idle edge before the first reset edge, where the rules do not hold yet (R164), this is
the model's choice (log entry 7). -/
def Obligations.ResponseRegisterTiming : Prop :=
  ∀ s t : State, step s = .next t →
    (s.accepting →
      t.rspValid = true ∧ t.rspAgrees = true ∧ t.rsp.extractLsb' 0 2 = statusByRule s.presented.cmd) ∧
      (¬s.accepting → t.rspValid = false ∧ t.rsp = s.rsp)

/-- R21, R22, R29: `cur` changes only by reset, by INIT and by a STEP in range; and where it names a state, it names a state after
the edge. That an idle edge before the first reset edge keeps `cur` is the model's choice (log entry 7). -/
def Obligations.CurWrittenOnlyByResetInitStep : Prop :=
  ∀ s t : State, step s = .next t →
    (t.cur ≠ s.cur →
      s.presented.rst = true ∨
        (s.accepting ∧
          (decode s.presented.cmd = .ok .init ∨ ∃ v : Sample, decode s.presented.cmd = .ok (.step v) ∧ v.toNat ≤ 7))) ∧
      (s.cur.toNat < s.engine.n → t.cur.toNat < t.engine.n)

/-- R125, R29 (c): no run of edges, whatever the host presents, writes the table. -/
def Obligations.TableFixedForLife : Prop :=
  ∀ (k : Nat) (s t : State), runEdges k s = .next t → t.engine = s.engine

/-- R43: no command's effect depends on the response register (nor on the model's record): two states that differ only there take
the same step, and give the same response. -/
def Obligations.ResponseRegisterIsNeverRead : Prop :=
  ∀ (s : State) (rsp : RspWord) (valid : Bool) (errors : List Status),
    (∀ t, step s = .next t →
      ∃ t', step { s with rsp := rsp, rspValid := valid, errors := errors } = .next t' ∧
        t'.cur = t.cur ∧ t'.engine = t.engine ∧ t'.wasReset = t.wasReset ∧ t'.inputs = t.inputs ∧ t'.rspValid = t.rspValid ∧
        (t.rspValid = true → t'.rsp = t.rsp)) ∧
      ∀ f, step s = .fault f → step { s with rsp := rsp, rspValid := valid, errors := errors } = .fault f

/-- D20, the model's own record (log entry 6): an edge adds to it exactly the status of a response that is not OK, and nothing
ever clears it. -/
def Obligations.RecordTakesEveryErrorStatus : Prop :=
  ∀ s t : State, step s = .next t →
    t.errors = s.errors ++
      (if t.rspValid = true ∧ t.rsp.extractLsb' 0 2 = 0b01#2 then [Status.outOfRangeInput]
       else if t.rspValid = true ∧ t.rsp.extractLsb' 0 2 = 0b10#2 then [Status.illegalCommand]
       else [])

/-! ## The invariant and runs -/

/-- R22, R66, R87, R112: every edge keeps the invariant, whatever the host presents. -/
def Obligations.EveryEdgeKeepsInv : Prop := ∀ s t : State, s.Inv → step s = .next t → t.Inv

/-- R160, R29 (b): a reset edge establishes the invariant in every state, and State.reset has it. -/
def Obligations.ResetEstablishesInv : Prop := (∀ s : State, s.resetEdge.Inv) ∧ State.reset.Inv

/-- R175, R112: the block never halts: from every state with the invariant after a reset, every run of edges goes on, whatever the
host presents. -/
def Obligations.BlockNeverHalts : Prop :=
  ∀ (k : Nat) (s : State), s.wasReset = true → s.Inv → ∃ t, runEdges k s = .next t

/-- R78, R89 (log entry 1): the machine handed to the host takes the port inputs of its plan one an edge, in order, each edge doing
what it does to a machine without a plan; where the plan is used up, every number of further edges only drops `rsp_valid`. -/
def Obligations.HostMachineFollowsThePlan : Prop :=
  ∀ (ps : List PortIn) (k : Nat) (s : State),
    Host.Core.run core ps.length ({ s with inputs := ps } : State) = edgesOn ps { s with inputs := [] } ∧
      Host.Core.run core (k + 1) ({ s with inputs := [] } : State) = .next { s with inputs := [], rspValid := false }

/-- R58, R175: stepping through a plan of commands is accepting them in order. -/
def Obligations.RunAcceptsCommandsInOrder : Prop :=
  ∀ (ws : List CmdWord) (s : State),
    runEdges ws.length (s.withCommands ws) = acceptWords ws (s.withCommands [])

/-- R140 (D20): a word answered with an error has no effect other than its response: whatever commands follow, they are answered,
and leave `cur`, as if it had not been presented. -/
def Obligations.ErrorsArePreciseAndLocal : Prop :=
  ∀ (s : State) (w : CmdWord), s.Legal → IllegalByRule w ∨ (∃ v : Sample, w = encode (.step v) ∧ 7 < v.toNat) →
    ∃ r : RspWord, r.extractLsb' 0 2 ≠ 0b00#2 ∧
      ∀ ws : List CmdWord,
        observeWords (w :: ws) s = andThen (observeWords ws s) fun o => .next { o with responses := r :: o.responses }

/-- R12, R102, R104, R110, R136: a run of STEP commands is the run of the contract's `Step` calls on the integers the samples stand
for, the output ports are its `CurrentOutputs`, and the record holds one OutOfRangeInput per failing call. -/
def Obligations.StepCommandsRefineContract : Prop :=
  ∀ (vs : List Sample) (s : State) (c : Fin s.engine.n), s.wasReset = true → s.cur = stateCode c →
    ∃ t, acceptWords (vs.map fun v => encode (.step v)) s = .next t ∧ t.engine = s.engine ∧
      t.cur = stateCode (contractRun s.engine c (vs.map sampleInt)) ∧
      (∀ free : OutPorts,
        t.outPorts free =
          { contractOutputs s.engine (contractRun s.engine c (vs.map sampleInt)) with state := t.cur }) ∧
      t.errors = s.errors ++ (vs.filter fun v => decide (7 < v.toNat)).map fun _ => Status.outOfRangeInput

/-- R63, R149 (D31): an edge of one instance leaves every other as it was, and edges of two instances may be taken in either
order. -/
def Obligations.InstancesAreIndependent : Prop :=
  ∀ (m : Nat) (group : Vector State m) (j k : Fin m), j ≠ k →
    (∀ g, stepInstance k group = .next g → g[j.val] = group[j.val]) ∧
      ∀ tj tk, step group[j.val] = .next tj → step group[k.val] = .next tk →
        andThen (stepInstance j group) (stepInstance k) = .next ((group.set j.val tj).set k.val tk) ∧
          andThen (stepInstance k group) (stepInstance j) = .next ((group.set j.val tj).set k.val tk)

/-! ## Outputs -/

/-- R42, R76 (D25): the ports are the row of `cur`, whatever the command presented in the same cycle and whatever is free before a
reset. -/
def Obligations.OutputsAreMoore : Prop :=
  ∀ (s : State) (h : s.Legal) (free : OutPorts) (inputs : List PortIn),
    ({ s with inputs := inputs } : State).outPorts free =
      { state := s.cur, primary := (s.row h).primary, ped := (s.row h).ped, hold := (s.row h).hold }

/-- R105: the host reads from OUTPUTS' response exactly what the ports carry before it and after it. -/
def Obligations.OutputsResponseEqualsPorts : Prop :=
  ∀ (s : State) (free : OutPorts), s.Legal →
    ∃ t, exec .outputs s = .next t ∧ t.outPorts free = s.outPorts free ∧
      t.hostRead = .ok { status := .ok, state := (s.outPorts free).state, primary := (s.outPorts free).primary,
                         ped := (s.outPorts free).ped, hold := (s.outPorts free).hold }

/-- R87, R88, I8, I10: a host reads back every response word, of any table; it refuses `rsp` while it is not valid, and a word with
a reserved field. -/
def Obligations.HostReadsBackResponses : Prop :=
  (∀ (st : Status) (x : StateId) (o : Outputs),
    readResponse (responseWord st x o) =
      .ok { status := st, state := x, primary := o.primary, ped := o.ped, hold := o.hold }) ∧
    (∀ w : RspWord, w.extractLsb' 2 2 ≠ 0#2 → readResponse w = .error .reservedBits) ∧
    (∀ w : RspWord, w.extractLsb' 2 2 = 0#2 → w.extractLsb' 0 2 = 0b11#2 → readResponse w = .error .reservedStatus) ∧
    ∀ s : State, s.rspValid = false → s.hostRead = .error .notValid

/-! ## Construction -/

/-- R129 (a): building what an engine serializes to gives the engine back. -/
def Obligations.BuildInvertsSerialize : Prop := ∀ e : Engine, build (serialize e) = .ok e

/-- R129 (b): serializing what an image builds gives the image back. -/
def Obligations.SerializeInvertsBuild : Prop := ∀ (img : List Byte) (e : Engine), build img = .ok e → serialize e = img

/-- R120, R123 (D17, D23): BUILD accepts exactly the legal images, and reports the first failing check: header checks in their order,
then rows in ascending order, in a row the reserved bits before the successors. The reasons have the codes 1 to 5. -/
def Obligations.BuildReportsFirstFailure : Prop :=
  (∀ img : List Byte,
    ((∃ e, build img = .ok e) ↔ HeaderLegal img ∧ ∀ s < (byteAt img 0).toNat, RowLegal img s) ∧
    (build img = .error .badLength ↔
      img.length < 2 ∨
        (1 ≤ (byteAt img 0).toNat ∧ (byteAt img 0).toNat ≤ 16 ∧ img.length ≠ 2 + 14 * (byteAt img 0).toNat)) ∧
    (build img = .error .badCount ↔ 2 ≤ img.length ∧ ((byteAt img 0).toNat < 1 ∨ 16 < (byteAt img 0).toNat)) ∧
    (build img = .error .badStart ↔
      2 ≤ img.length ∧ 1 ≤ (byteAt img 0).toNat ∧ (byteAt img 0).toNat ≤ 16 ∧
        img.length = 2 + 14 * (byteAt img 0).toNat ∧ (byteAt img 0).toNat ≤ (byteAt img 1).toNat) ∧
    (build img = .error .reservedBits ↔
      HeaderLegal img ∧ ∃ s < (byteAt img 0).toNat, (∀ k < s, RowLegal img k) ∧ RowReserved img s) ∧
    (build img = .error .danglingNext ↔
      HeaderLegal img ∧ ∃ s < (byteAt img 0).toNat,
        (∀ k < s, RowLegal img k) ∧ ¬RowReserved img s ∧ RowDangling img s)) ∧
    [InvalidTable.badLength, .badCount, .badStart, .reservedBits, .danglingNext].map InvalidTable.code = [1, 2, 3, 4, 5]

/-- R120, R92, R93 (D16): what BUILD takes from the bytes of an image it accepts. -/
def Obligations.BuildReadsEveryField : Prop :=
  ∀ (img : List Byte) (e : Engine), build img = .ok e →
    e.n = (byteAt img 0).toNat ∧ e.start.val = (byteAt img 1).toNat ∧
      ∀ s : Fin e.n,
        e.rows[s.val].primary = (byteAt img (2 + 14 * s.val)).extractLsb' 0 6 ∧
          e.rows[s.val].ped = (byteAt img (2 + 14 * s.val + 1)).extractLsb' 0 2 ∧
          e.rows[s.val].hold.toNat =
            (byteAt img (2 + 14 * s.val + 2)).toNat + 256 * (byteAt img (2 + 14 * s.val + 3)).toNat +
              65536 * (byteAt img (2 + 14 * s.val + 4)).toNat + 16777216 * (byteAt img (2 + 14 * s.val + 5)).toNat ∧
          ∀ i : Fin 8, (e.rows[s.val].next[i.val]).val = (byteAt img (2 + 14 * s.val + 6 + i.val)).toNat

/-- R128 (D16): the bytes SERIALIZE writes, and their number. -/
def Obligations.SerializeWritesEveryField : Prop :=
  ∀ e : Engine,
    (serialize e).length = 2 + 14 * e.n ∧ byteAt (serialize e) 0 = BitVec.ofNat 8 e.n ∧
      byteAt (serialize e) 1 = BitVec.ofNat 8 e.start.val ∧
      ∀ s : Fin e.n,
        byteAt (serialize e) (2 + 14 * s.val) = e.rows[s.val].primary.setWidth 8 ∧
          byteAt (serialize e) (2 + 14 * s.val + 1) = e.rows[s.val].ped.setWidth 8 ∧
          (∀ j : Fin 4, byteAt (serialize e) (2 + 14 * s.val + 2 + j.val) = e.rows[s.val].hold.extractLsb' (8 * j.val) 8) ∧
          ∀ i : Fin 8, byteAt (serialize e) (2 + 14 * s.val + 6 + i.val) = BitVec.ofNat 8 (e.rows[s.val].next[i.val]).val

/-- R164, R95, R126, R163: booting this hardware's image, whatever the registers held, gives the reset state, with the response
register as it was; and this hardware's engine serializes to the image. -/
def Obligations.BootingThisImageGivesReset : Prop :=
  (∀ (cur : StateId) (rsp : RspWord) (valid : Bool),
    boot thisImage cur rsp valid = .ok { State.reset with rsp := rsp }) ∧
    serialize thisEngine = thisImage

/-- R163: after a reset edge of this hardware, from any state, `cur` is goW, the response is not valid, and the outputs are
goW's. -/
def Obligations.ResetOutputsAreGoW : Prop :=
  ∀ (s : State) (free : OutPorts), s.engine = thisEngine → s.presented.rst = true →
    ∃ t, step s = .next t ∧ t.cur = 0 ∧ t.rspValid = false ∧
      t.outPorts free = { state := 0, primary := 0x0C, ped := 0b01, hold := 100 }

/-! ## This hardware's table -/

/-- R35: from goPed, inputs 0 and 4 stay, every other input goes to flashON1. -/
def Obligations.GoPedLeavesOnlyForCars : Prop :=
  ∀ (s : State) (v : Sample), s.engine = thisEngine → s.wasReset = true → s.cur = 4 → v.toNat ≤ 7 →
    ∃ t, exec (.step v) s = .next t ∧ t.cur = if v = 0 ∨ v = 4 then 4 else 5

/-- R36 to R38: flashON1, flashOFF1 and flashON2 advance to the next flash state on every input. -/
def Obligations.FlashStatesAdvance : Prop :=
  ∀ (s : State) (v : Sample), s.engine = thisEngine → s.wasReset = true → v.toNat ≤ 7 →
    (s.cur = 5 → ∃ t, exec (.step v) s = .next t ∧ t.cur = 6) ∧
      (s.cur = 6 → ∃ t, exec (.step v) s = .next t ∧ t.cur = 7) ∧
      (s.cur = 7 → ∃ t, exec (.step v) s = .next t ∧ t.cur = 8)

/-- R31 to R39, R70 by the sensors, the readings and decisions D10 to D14 among them: the successor of every named state for every
reading of the three sensors; and the samples in range are exactly the packed readings. -/
def Obligations.SensorsDecideSuccessor : Prop :=
  (∀ (s : State) (x : StateName) (pedestrian carS carW : Bool),
    s.engine = thisEngine → s.wasReset = true → s.cur = x.code →
      ∃ t, exec (.step (packSensors pedestrian carS carW)) s = .next t ∧
        t.cur = (describedNext x pedestrian carS carW).code) ∧
    ∀ v : Sample, v.toNat ≤ 7 ↔ ∃ pedestrian carS carW : Bool, v = packSensors pedestrian carS carW

/-- R115 (c), from R36 to R39: any four STEPs in range from flashON1 pass flashOFF1, flashON2 and flashOFF2 and leave the flash cycle,
to goPed, goW or goS. -/
def Obligations.FourStepsLeaveFlashCycle : Prop :=
  ∀ (s : State) (v1 v2 v3 v4 : Sample), s.engine = thisEngine → s.wasReset = true → s.cur = 5 →
    v1.toNat ≤ 7 → v2.toNat ≤ 7 → v3.toNat ≤ 7 → v4.toNat ≤ 7 →
    ∃ t1 t2 t3 t4, exec (.step v1) s = .next t1 ∧ t1.cur = 6 ∧ exec (.step v2) t1 = .next t2 ∧ t2.cur = 7 ∧
      exec (.step v3) t2 = .next t3 ∧ t3.cur = 8 ∧ exec (.step v4) t3 = .next t4 ∧
      (t4.cur = 4 ∨ t4.cur = 0 ∨ t4.cur = 2)

/-- R115 (e): every state is reachable from goW by STEPs in range, from whatever the other registers hold. -/
def Obligations.EveryStateReachableFromGoW : Prop :=
  ∀ x : StateName, ∃ vs : List Sample, (∀ v ∈ vs, v.toNat ≤ 7) ∧
    ∀ s : State, s.engine = thisEngine → s.wasReset = true → s.cur = 0 →
      ∃ t, acceptWords (vs.map fun v => encode (.step v)) s = .next t ∧ t.cur = x.code

/-- R40, R41, R72, R73 (D6, D7, D8): the lights each named state shows and how long it is held. -/
def Obligations.EachStateShowsItsLights : Prop :=
  ∀ (s : State) (x : StateName) (free : OutPorts), s.engine = thisEngine → s.wasReset = true → s.cur = x.code →
    shows primaryLayout (s.outPorts free).primary .w (describedOutputs x).1 = true ∧
      shows primaryLayout (s.outPorts free).primary .s (describedOutputs x).2.1 = true ∧
      pedShows pedLayout (s.outPorts free).ped (describedOutputs x).2.2.1 = true ∧
      Config.tickMs * (s.outPorts free).hold.toNat = (describedOutputs x).2.2.2

/-- From R22, R40, R42, D8: no run of this hardware, whatever the host presents, ever gives both approaches the way, or an approach
and the pedestrians. -/
def Obligations.LightsNeverConflict : Prop :=
  ∀ (k : Nat) (s t : State) (free : OutPorts), s.engine = thisEngine → s.wasReset = true → s.Inv →
    runEdges k s = .next t →
    safeLights primaryLayout pedLayout (t.outPorts free).primary (t.outPorts free).ped = true

/-! ## The host -/

/-- R166, R167, R169, R174: the canonical host loop keeps the dwell rule for any samples, in range or not, and however much longer
than the hold time it waits, and takes a turn for each; the first turn drives the state's masks and waits its hold and the longer
time (log entries 12 and 13). -/
def Obligations.HostLoopKeepsDwell : Prop :=
  ∀ (now : Nat) (vs : List TurnInput) (s : State) (h : s.Legal),
    keepsDwell now now ((hostLoop now vs s).map Turn.timedPort) s = true ∧
      (hostLoop now vs s).map Turn.sample = vs.map TurnInput.sample ∧
      ∀ turn ∈ (hostLoop now vs s).head?, ∀ v ∈ vs.head?,
        turn.primary = (s.row h).primary ∧ turn.ped = (s.row h).ped ∧
          turn.waitMs = 10 * (s.row h).hold.toNat + v.extraMs ∧ turn.stepTime = now + turn.waitMs

/-! ## Another choice of a parameter -/

/-- R7, R12 (D5): the range check and the reading as an integer at every `SAMPLE_W`: exactly the samples up to 7 stand for an integer
from 0 to 7; at 3 bits and fewer every sample is in range. The reading at widths other than 8 is the model's (log entry 18). -/
def Obligations.SampleRangeAtEveryWidth : Prop :=
  ∀ (sampleW : Nat) (v : Sample sampleW),
    ((sampleIndex v).isSome = true ↔ v.toNat ≤ 7) ∧ ((0 ≤ sampleInt v ∧ sampleInt v ≤ 7) ↔ v.toNat ≤ 7) ∧
      sampleOfInt (sampleInt v) sampleW = v ∧ (sampleW ≤ 3 → (sampleIndex v).isSome = true)

/-- R7, R79 to R86 (D5): at every `SAMPLE_W` every command is read back from its word, and every word that decodes is the word of what
it decodes to. -/
def Obligations.CodecAtEveryWidth : Prop :=
  ∀ sampleW : Nat,
    (∀ i : Instr sampleW, decode (encode i) = .ok i) ∧
      ∀ (w : CmdWord sampleW) (i : Instr sampleW), decode w = .ok i → encode i = w

/-- R7, R8, R22, R175 (D3, D5, D9): at every `SAMPLE_W`, `ID_W` and `HOLD_W`, from every state after a reset that has the invariant,
every run of edges goes on and keeps the invariant and the table, whatever the host presents. -/
def Obligations.RunsAtEveryWidth : Prop :=
  ∀ (sampleW idW holdW k : Nat) (s : State sampleW idW holdW), s.wasReset = true → s.Inv →
    ∃ t, runEdges k s = .next t ∧ t.Inv ∧ t.engine = s.engine

/-- R7 (D5): at a `SAMPLE_W` of 3 bits or fewer no edge answers OUT_OF_RANGE_INPUT, and at 4 bits or more STEP of 8 does, in every
legal state. -/
def Obligations.OutOfRangeNeedsFourBits : Prop :=
  ∀ (sampleW idW holdW : Nat) (s : State sampleW idW holdW),
    (sampleW ≤ 3 → ∀ t, stepAt s = .next t → t.rspValid = true → t.rsp.extractLsb' 0 2 ≠ 0b01#2) ∧
      (4 ≤ sampleW → s.Legal →
        ∃ t, perform (.step (BitVec.ofNat sampleW 8)) s = .next t ∧ t.cur = s.cur ∧ t.rsp.extractLsb' 0 2 = 0b01#2)

/-- R7, R129 (D3, D9, D16): at every `ID_W` up to 7 and `HOLD_W` up to 32, whose counts and holds the image has room for, building what
an engine serializes to gives the engine back; at every `ID_W` and `HOLD_W`, serializing what an image builds gives the image back. The
image keeps its format at every choice, which is the model's choice (log entry 20). -/
def Obligations.RoundTripAtEveryWidth : Prop :=
  ∀ idW holdW : Nat,
    (idW ≤ 7 → holdW ≤ 32 → ∀ e : Engine idW holdW, build (serialize e) idW holdW = .ok e) ∧
      ∀ (img : List Byte) (e : Engine idW holdW), build img idW holdW = .ok e → serialize e = img

/-- R7, R122 (D9): BUILD at a narrower `HOLD_W` accepts exactly those of this hardware's legal images whose holds the field can hold,
with the same masks, successors and hold values. Refusing the others is the model's choice (log entry 20). -/
def Obligations.NarrowHoldRefusesLongHolds : Prop :=
  ∀ (holdW : Nat) (img : List Byte), holdW ≤ 32 →
    ((∃ e, build img Config.idW holdW = .ok e) ↔
      ∃ e, build img = .ok e ∧ ∀ s : Fin e.n, e.rows[s.val].hold.toNat < 2 ^ holdW) ∧
      ∀ e e', build img Config.idW holdW = .ok e → build img = .ok e' →
        ∃ h : e.n = e'.n, ∀ s : Fin e.n,
          (e.rows[s.val]).primary = (e'.rows[s.val]'(h ▸ s.isLt)).primary ∧ (e.rows[s.val]).ped = (e'.rows[s.val]'(h ▸ s.isLt)).ped ∧
            (e.rows[s.val]).hold.toNat = (e'.rows[s.val]'(h ▸ s.isLt)).hold.toNat ∧
            ∀ i : Fin 8, ((e.rows[s.val]).next[i.val]).val = ((e'.rows[s.val]'(h ▸ s.isLt)).next[i.val]).val
end

