-- ==== Sys2Proof/Laws/Words.lean ====
section
/-!
SUPPORT. The fields of a command word and of a response word, read back from the word they were put into. The lemmas about
`++` hold at every width, so that the fixed widths of the two words come in only by their instances at the end.
-/

namespace Sys2Proof

/-- The values of the parameters that arithmetic needs (00_scope.md R7). -/
theorem Config.nMax_eq : Config.nMax = 16 := rfl
theorem Config.two_pow_idW : 2 ^ Config.idW = 16 := rfl
theorem Config.two_pow_sampleW : 2 ^ Config.sampleW = 256 := rfl

/-- The low part of a concatenation. -/
theorem extract_append_low {a b : Nat} (x : BitVec a) (y : BitVec b) : (x ++ y).extractLsb' 0 b = y := by
  ext i hi
  simp [BitVec.getLsbD_append, hi]

/-- A field above the low part of a concatenation. -/
theorem extract_append_above {a b : Nat} (x : BitVec a) (y : BitVec b) (k l : Nat) :
    (x ++ y).extractLsb' (b + k) l = x.extractLsb' k l := by
  ext i hi
  simp [BitVec.getLsbD_append, show ¬b + k + i < b by omega, show b + k + i - b = k + i by omega]

/-- A word of three parts is their concatenation. -/
theorem append_extracts {a b c : Nat} (w : BitVec (a + b + c)) :
    w.extractLsb' (c + b) a ++ w.extractLsb' c b ++ w.extractLsb' 0 c = w := by
  ext i hi
  rw [BitVec.getElem_append]
  split
  · simp [BitVec.getLsbD_eq_getElem hi]
  · rw [BitVec.getElem_append]
    split
    · simp [show c + (i - c) = i by omega, BitVec.getLsbD_eq_getElem hi]
    · simp [show c + b + (i - c - b) = i by omega, BitVec.getLsbD_eq_getElem hi]

variable {sampleW : Nat}

@[simp] theorem opField_commandWord (s : Sample sampleW) (rsv op : BitVec 4) : opField (commandWord s rsv op) = op :=
  extract_append_low (s ++ rsv) op

@[simp] theorem rsvField_commandWord (s : Sample sampleW) (rsv op : BitVec 4) : rsvField (commandWord s rsv op) = rsv :=
  (extract_append_above (s ++ rsv) op 0 4).trans (extract_append_low s rsv)

@[simp] theorem operandField_commandWord (s : Sample sampleW) (rsv op : BitVec 4) :
    operandField (commandWord s rsv op) = s :=
  (extract_append_above (s ++ rsv) op 4 sampleW).trans ((extract_append_above s rsv 0 sampleW).trans (by simp))

/-- A word is its three fields (30_encoding.md R79). -/
theorem commandWord_fields (w : CmdWord sampleW) : commandWord (operandField w) (rsvField w) (opField w) = w :=
  append_extracts (a := sampleW) (b := 4) (c := 4) w

/-- Two words with the same fields are the same word. -/
theorem word_ext {v w : CmdWord sampleW} (ho : opField v = opField w) (hr : rsvField v = rsvField w)
    (hs : operandField v = operandField w) : v = w := by
  rw [← commandWord_fields v, ← commandWord_fields w, ho, hr, hs]

end Sys2Proof

namespace Sys2Proof.Machine

/-- The status a code was made of is read back (30_encoding.md R88). -/
@[simp] theorem statusOfCode_code (st : Status) : statusOfCode st.code = some st := by
  cases st <;> decide

/-- No status has the reserved code 11 (30_encoding.md R88). -/
theorem Status.code_ne_reserved (st : Status) : st.code ≠ 0b11#2 := by
  cases st <;> decide

variable {idW holdW : Nat} (st : Status) (x : StateId idW) (o : Outputs holdW)

/-- A field of a response word above the status and the reserved bits is a field of the concatenation above them. -/
theorem extract_responseWord (k l : Nat) :
    (responseWord st x o).extractLsb' (2 + (2 + k)) l = (o.hold ++ o.ped ++ o.primary ++ x).extractLsb' k l :=
  (extract_append_above _ st.code (2 + k) l).trans (extract_append_above _ 0b00#2 k l)

@[simp] theorem responseWord_status : (responseWord st x o).extractLsb' 0 2 = st.code :=
  extract_append_low _ st.code

@[simp] theorem responseWord_reserved : (responseWord st x o).extractLsb' 2 2 = 0#2 :=
  (extract_append_above _ st.code 0 2).trans (extract_append_low _ 0b00#2)

@[simp] theorem responseWord_state : (responseWord st x o).extractLsb' 4 idW = x :=
  (extract_responseWord st x o 0 idW).trans (extract_append_low _ x)

@[simp] theorem responseWord_primary : (responseWord st x o).extractLsb' (4 + idW) Config.primaryW = o.primary := by
  rw [show 4 + idW = 2 + (2 + (idW + 0)) by omega, extract_responseWord, extract_append_above]
  exact extract_append_low _ o.primary

@[simp] theorem responseWord_ped : (responseWord st x o).extractLsb' (10 + idW) Config.pedW = o.ped := by
  rw [show 10 + idW = 2 + (2 + (idW + (Config.primaryW + 0))) by simp only [Config.primaryW]; omega, extract_responseWord,
    extract_append_above, extract_append_above]
  exact extract_append_low _ o.ped

@[simp] theorem responseWord_hold : (responseWord st x o).extractLsb' (12 + idW) holdW = o.hold := by
  rw [show 12 + idW = 2 + (2 + (idW + (Config.primaryW + (Config.pedW + 0)))) by
      simp only [Config.primaryW, Config.pedW]; omega,
    extract_responseWord, extract_append_above, extract_append_above, extract_append_above]
  simp

/-- The fields of this hardware's response word, at the bits 30_encoding.md R87 gives. -/
theorem responseWord_fields (x : StateId) (o : Outputs) :
    (responseWord st x o).extractLsb' 4 4 = x ∧ (responseWord st x o).extractLsb' 8 6 = o.primary ∧
      (responseWord st x o).extractLsb' 14 2 = o.ped ∧ (responseWord st x o).extractLsb' 16 32 = o.hold :=
  ⟨responseWord_state st x o, responseWord_primary st x o, responseWord_ped st x o, responseWord_hold st x o⟩

end Sys2Proof.Machine
end

