-- ==== Sys2Proof/Laws/Construct.lean ====
section
/-!
SUPPORT. What the shared operations of table construction can do: collecting checked results in order, the bytes of a row, and
the place of a row in an image.
-/

namespace Sys2Proof.Machine

/-- `collect` succeeds exactly where every result does, with all of them. -/
theorem collect_ok_iff {α : Type} : ∀ {m : Nat} {f : Fin m → Except InvalidTable α} {v : Vector α m},
    collect m f = .ok v ↔ ∀ i : Fin m, f i = .ok v[i.val]
  | 0, f, v => by simp [collect, Vector.eq_empty]
  | m + 1, f, v => by
    simp only [collect]
    constructor
    · intro h
      split at h
      · exact nomatch h
      · rename_i u hu
        split at h
        · exact nomatch h
        · rename_i x hx
          cases h
          have hu := collect_ok_iff.mp hu
          intro i
          refine Fin.lastCases ?_ (fun j => ?_) i
          · simpa using hx
          · simpa [Vector.getElem_push_lt j.isLt] using hu j
    · intro h
      have hu : collect m (fun i => f i.castSucc) = .ok v.pop :=
        collect_ok_iff.mpr fun i => by simpa using h i.castSucc
      have hx : f (Fin.last m) = .ok v.back := by simpa [Vector.back] using h (Fin.last m)
      rw [hu, hx]
      simp

/-- `collect` fails exactly with the first error in ascending order. -/
theorem collect_error_iff {α : Type} : ∀ {m : Nat} {f : Fin m → Except InvalidTable α} {r : InvalidTable},
    collect m f = .error r ↔ ∃ i : Fin m, f i = .error r ∧ ∀ j : Fin m, j < i → ∃ x, f j = .ok x
  | 0, f, r => by
    simp only [collect]
    exact ⟨fun h => (nomatch h), fun ⟨i, _⟩ => i.elim0⟩
  | m + 1, f, r => by
    simp only [collect]
    cases hu : collect m (fun i => f i.castSucc) with
    | error r' =>
      obtain ⟨i, hi, hb⟩ := collect_error_iff.mp hu
      constructor
      · intro h
        cases h
        refine ⟨i.castSucc, hi, fun j hj => ?_⟩
        have hjm : j.val < m := by have := i.isLt; have : j.val < i.val := hj; omega
        exact hb ⟨j.val, hjm⟩ hj
      · rintro ⟨k, hk, hkb⟩
        rcases lt_trichotomy k i.castSucc with hlt | heq | hgt
        · have hkm : k.val < m := by have := i.isLt; have : k.val < i.val := hlt; omega
          obtain ⟨x, hx⟩ := hb ⟨k.val, hkm⟩ hlt
          have : f k = .ok x := hx
          rw [hk] at this
          exact nomatch this
        · subst heq
          rw [hi] at hk
          cases hk
          rfl
        · obtain ⟨x, hx⟩ := hkb _ hgt
          rw [hi] at hx
          exact nomatch hx
    | ok v =>
      have hv := collect_ok_iff.mp hu
      constructor
      · intro h
        cases hl : f (Fin.last m) with
        | error r' =>
          rw [hl] at h
          cases h
          refine ⟨Fin.last m, hl, fun j hj => ?_⟩
          exact ⟨_, hv ⟨j.val, hj⟩⟩
        | ok x =>
          rw [hl] at h
          exact nomatch h
      · rintro ⟨k, hk, -⟩
        have hkl : k = Fin.last m := by
          by_contra hne
          have hkm : k.val < m := Fin.val_lt_last hne
          have : f k = .ok v[k.val] := hv ⟨k.val, hkm⟩
          rw [hk] at this
          exact nomatch this
        rw [← hkl, hk]

variable {idW holdW : Nat}

@[simp] theorem holdBytes_length (h : BitVec 32) : (holdBytes h).length = 4 := rfl

/-- A row takes 14 bytes (30_encoding.md R91). -/
@[simp] theorem rowBytes_length {n : Nat} (r : Row n holdW) : (rowBytes r).length = 14 := by
  simp [rowBytes]

/-- The bytes of a hold give the hold (20_memory.md R53). -/
theorem le32_bytes (h : BitVec 32) :
    le32 (h.extractLsb' 0 8) (h.extractLsb' 8 8) (h.extractLsb' 16 8) (h.extractLsb' 24 8) = h := by
  have h3 := append_extracts (a := 16) (b := 8) (c := 8) h
  unfold le32
  refine Eq.trans ?_ h3
  refine congrArg (fun z : BitVec 16 => z ++ h.extractLsb' 8 8 ++ h.extractLsb' 0 8) ?_
  ext i hi
  rw [BitVec.getElem_append]
  split
  · simp
  · simp [show 24 + (i - 8) = 16 + i by omega]

/-- `le32` by its formula (00_scope.md R11). -/
theorem le32_toNat (b0 b1 b2 b3 : Byte) :
    (le32 b0 b1 b2 b3).toNat = b0.toNat + 256 * b1.toNat + 65536 * b2.toNat + 16777216 * b3.toNat := by
  have h0 := b0.isLt
  have h1 := b1.isLt
  have h2 := b2.isLt
  have step : ∀ {a b : Nat} (x : BitVec a) (y : BitVec b), (x ++ y).toNat = x.toNat * 2 ^ b + y.toNat := by
    intro a b x y
    rw [BitVec.toNat_append, Nat.shiftLeft_eq, Nat.mul_comm, ← Nat.two_pow_add_eq_or_of_lt y.isLt]
  show ((b3 ++ b2 ++ b1 ++ b0 : BitVec (8 + 8 + 8 + 8))).toNat = _
  rw [step, step, step]
  omega

/-- What a narrower field cannot hold, or a bit outside a mask's field (43_construction.md R120, notes/assumptions/20.md). -/
theorem reservedSet_iff (img : List Byte) (b : Nat) :
    reservedSet holdW img b = true ↔
      64 ≤ (byteAt img b).toNat ∨ 4 ≤ (byteAt img (b + 1)).toNat ∨ 2 ^ holdW ≤ (holdField img b).toNat := by
  have primary : ∀ x : Byte, (x.extractLsb' 6 2 != 0) = decide (64 ≤ x.toNat) := by decide
  have ped : ∀ x : Byte, (x.extractLsb' 2 6 != 0) = decide (4 ≤ x.toNat) := by decide
  unfold reservedSet
  rw [primary, ped]
  simp [or_assoc]

/-- For this hardware a hold has no reserved bits (43_construction.md R120). -/
theorem reservedSet_iff_masks (img : List Byte) (b : Nat) :
    reservedSet Config.holdW img b = true ↔ 64 ≤ (byteAt img b).toNat ∨ 4 ≤ (byteAt img (b + 1)).toNat := by
  have fits : ¬2 ^ Config.holdW ≤ (holdField img b).toNat := Nat.not_le.mpr (holdField img b).isLt
  rw [reservedSet_iff]
  simp only [fits, or_false]

/-- Byte `j` of entry `i` in a list of entries of `k` bytes each. -/
theorem flatMap_getElem? {α β : Type} (f : α → List β) (k : Nat) : ∀ (l : List α) (i j : Nat) (_ : ∀ x ∈ l, (f x).length = k)
    (hi : i < l.length) (_ : j < k), (l.flatMap f)[k * i + j]? = (f l[i])[j]?
  | [], i, j, _, hi, _ => by simp at hi
  | x :: xs, 0, j, hf, _, hj => by
    have : j < (f x).length := by rw [hf x (by simp)]; exact hj
    simp [List.flatMap_cons, List.getElem?_append_left this]
  | x :: xs, i + 1, j, hf, hi, hj => by
    have hx : (f x).length = k := hf x (by simp)
    have hle : (f x).length ≤ k * (i + 1) + j := by rw [hx]; nlinarith
    rw [List.flatMap_cons, List.getElem?_append_right hle, hx,
      show k * (i + 1) + j - k = k * i + j by rw [Nat.mul_succ]; omega]
    exact flatMap_getElem? f k xs i j (fun y hy => hf y (by simp [hy])) (by simpa using hi) hj

/-- The bytes of the rows of an engine, one row after another, number 14 a row. -/
theorem rows_bytes_length (e : Engine idW holdW) : (e.rows.toList.flatMap rowBytes).length = 14 * e.n := by
  simp [List.length_flatMap, Nat.mul_comm]

end Sys2Proof.Machine
end

