-- ==== Sys2Proof/Laws/State.lean ====
section
/-!
SUPPORT. One lemma per field of State per update, so that no proof unfolds a record update.
-/

namespace Sys2Proof.Machine

variable {sampleW idW holdW : Nat}

@[simp] theorem State.writeCur_engine (v : StateId idW) (s : State sampleW idW holdW) :
    (s.writeCur v).engine = s.engine := rfl
@[simp] theorem State.writeCur_cur (v : StateId idW) (s : State sampleW idW holdW) :
    (s.writeCur v).cur = v := rfl
@[simp] theorem State.writeCur_rsp (v : StateId idW) (s : State sampleW idW holdW) :
    (s.writeCur v).rsp = s.rsp := rfl
@[simp] theorem State.writeCur_rspValid (v : StateId idW) (s : State sampleW idW holdW) :
    (s.writeCur v).rspValid = s.rspValid := rfl
@[simp] theorem State.writeCur_wasReset (v : StateId idW) (s : State sampleW idW holdW) :
    (s.writeCur v).wasReset = s.wasReset := rfl
@[simp] theorem State.writeCur_errors (v : StateId idW) (s : State sampleW idW holdW) :
    (s.writeCur v).errors = s.errors := rfl
@[simp] theorem State.writeCur_inputs (v : StateId idW) (s : State sampleW idW holdW) :
    (s.writeCur v).inputs = s.inputs := rfl

@[simp] theorem State.loadResponse_engine (st : Status) (w : RspWord idW holdW) (s : State sampleW idW holdW) :
    (s.loadResponse st w).engine = s.engine := rfl
@[simp] theorem State.loadResponse_cur (st : Status) (w : RspWord idW holdW) (s : State sampleW idW holdW) :
    (s.loadResponse st w).cur = s.cur := rfl
@[simp] theorem State.loadResponse_rsp (st : Status) (w : RspWord idW holdW) (s : State sampleW idW holdW) :
    (s.loadResponse st w).rsp = w := rfl
@[simp] theorem State.loadResponse_rspValid (st : Status) (w : RspWord idW holdW) (s : State sampleW idW holdW) :
    (s.loadResponse st w).rspValid = true := rfl
@[simp] theorem State.loadResponse_wasReset (st : Status) (w : RspWord idW holdW) (s : State sampleW idW holdW) :
    (s.loadResponse st w).wasReset = s.wasReset := rfl
@[simp] theorem State.loadResponse_errors (st : Status) (w : RspWord idW holdW) (s : State sampleW idW holdW) :
    (s.loadResponse st w).errors = recordStatus st s.errors := rfl
@[simp] theorem State.loadResponse_inputs (st : Status) (w : RspWord idW holdW) (s : State sampleW idW holdW) :
    (s.loadResponse st w).inputs = s.inputs := rfl

@[simp] theorem State.resetEdge_engine (s : State sampleW idW holdW) :
    (s.resetEdge).engine = s.engine := rfl
@[simp] theorem State.resetEdge_cur (s : State sampleW idW holdW) :
    (s.resetEdge).cur = s.engine.startId := rfl
@[simp] theorem State.resetEdge_rsp (s : State sampleW idW holdW) :
    (s.resetEdge).rsp = s.rsp := rfl
@[simp] theorem State.resetEdge_rspValid (s : State sampleW idW holdW) :
    (s.resetEdge).rspValid = false := rfl
@[simp] theorem State.resetEdge_wasReset (s : State sampleW idW holdW) :
    (s.resetEdge).wasReset = true := rfl
@[simp] theorem State.resetEdge_errors (s : State sampleW idW holdW) :
    (s.resetEdge).errors = s.errors := rfl
@[simp] theorem State.resetEdge_inputs (s : State sampleW idW holdW) :
    (s.resetEdge).inputs = s.inputs := rfl

@[simp] theorem State.idleEdge_engine (s : State sampleW idW holdW) :
    (s.idleEdge).engine = s.engine := rfl
@[simp] theorem State.idleEdge_cur (s : State sampleW idW holdW) :
    (s.idleEdge).cur = s.cur := rfl
@[simp] theorem State.idleEdge_rsp (s : State sampleW idW holdW) :
    (s.idleEdge).rsp = s.rsp := rfl
@[simp] theorem State.idleEdge_rspValid (s : State sampleW idW holdW) :
    (s.idleEdge).rspValid = false := rfl
@[simp] theorem State.idleEdge_wasReset (s : State sampleW idW holdW) :
    (s.idleEdge).wasReset = s.wasReset := rfl
@[simp] theorem State.idleEdge_errors (s : State sampleW idW holdW) :
    (s.idleEdge).errors = s.errors := rfl
@[simp] theorem State.idleEdge_inputs (s : State sampleW idW holdW) :
    (s.idleEdge).inputs = s.inputs := rfl

@[simp] theorem State.advance_engine (s : State sampleW idW holdW) :
    (s.advance).engine = s.engine := rfl
@[simp] theorem State.advance_cur (s : State sampleW idW holdW) :
    (s.advance).cur = s.cur := rfl
@[simp] theorem State.advance_rsp (s : State sampleW idW holdW) :
    (s.advance).rsp = s.rsp := rfl
@[simp] theorem State.advance_rspValid (s : State sampleW idW holdW) :
    (s.advance).rspValid = s.rspValid := rfl
@[simp] theorem State.advance_wasReset (s : State sampleW idW holdW) :
    (s.advance).wasReset = s.wasReset := rfl
@[simp] theorem State.advance_errors (s : State sampleW idW holdW) :
    (s.advance).errors = s.errors := rfl
@[simp] theorem State.advance_inputs (s : State sampleW idW holdW) :
    (s.advance).inputs = s.inputs.tail := rfl

@[simp] theorem State.presentCommand_engine (w : CmdWord sampleW) (s : State sampleW idW holdW) :
    (s.presentCommand w).engine = s.engine := rfl
@[simp] theorem State.presentCommand_cur (w : CmdWord sampleW) (s : State sampleW idW holdW) :
    (s.presentCommand w).cur = s.cur := rfl
@[simp] theorem State.presentCommand_rsp (w : CmdWord sampleW) (s : State sampleW idW holdW) :
    (s.presentCommand w).rsp = s.rsp := rfl
@[simp] theorem State.presentCommand_rspValid (w : CmdWord sampleW) (s : State sampleW idW holdW) :
    (s.presentCommand w).rspValid = s.rspValid := rfl
@[simp] theorem State.presentCommand_wasReset (w : CmdWord sampleW) (s : State sampleW idW holdW) :
    (s.presentCommand w).wasReset = s.wasReset := rfl
@[simp] theorem State.presentCommand_errors (w : CmdWord sampleW) (s : State sampleW idW holdW) :
    (s.presentCommand w).errors = s.errors := rfl
@[simp] theorem State.presentCommand_inputs (w : CmdWord sampleW) (s : State sampleW idW holdW) :
    (s.presentCommand w).inputs = PortIn.command w :: s.inputs.tail := rfl

@[simp] theorem State.withCommands_engine (ws : List (CmdWord sampleW)) (s : State sampleW idW holdW) :
    (s.withCommands ws).engine = s.engine := rfl
@[simp] theorem State.withCommands_cur (ws : List (CmdWord sampleW)) (s : State sampleW idW holdW) :
    (s.withCommands ws).cur = s.cur := rfl
@[simp] theorem State.withCommands_rsp (ws : List (CmdWord sampleW)) (s : State sampleW idW holdW) :
    (s.withCommands ws).rsp = s.rsp := rfl
@[simp] theorem State.withCommands_rspValid (ws : List (CmdWord sampleW)) (s : State sampleW idW holdW) :
    (s.withCommands ws).rspValid = s.rspValid := rfl
@[simp] theorem State.withCommands_wasReset (ws : List (CmdWord sampleW)) (s : State sampleW idW holdW) :
    (s.withCommands ws).wasReset = s.wasReset := rfl
@[simp] theorem State.withCommands_errors (ws : List (CmdWord sampleW)) (s : State sampleW idW holdW) :
    (s.withCommands ws).errors = s.errors := rfl
@[simp] theorem State.withCommands_inputs (ws : List (CmdWord sampleW)) (s : State sampleW idW holdW) :
    (s.withCommands ws).inputs = ws.map PortIn.command := rfl

/-- A plan begun with a command presents it. -/
@[simp] theorem State.presented_presentCommand (w : CmdWord sampleW) (s : State sampleW idW holdW) :
    (s.presentCommand w).presented = PortIn.command w := rfl

@[simp] theorem PortIn.command_rst (w : CmdWord sampleW) : (PortIn.command w).rst = false := rfl
@[simp] theorem PortIn.command_cmdValid (w : CmdWord sampleW) : (PortIn.command w).cmdValid = true := rfl
@[simp] theorem PortIn.command_cmd (w : CmdWord sampleW) : (PortIn.command w).cmd = w := rfl

end Sys2Proof.Machine
end

