-- ==== Sys2Proof/Laws/Ops.lean ====
section
/-!
SUPPORT. What each shared operation can do, said once: table reads, `whenReset`, `respond`, `raise`, illegal commands.
-/

namespace Sys2Proof.Machine

variable {sampleW idW holdW : Nat}

/-- Identifiers fit their code (00_scope.md R7: `N` is at most `2 ^ ID_W`). -/
theorem Engine.stateCode_toNat (e : Engine idW holdW) (k : Fin e.n) : (stateCode k idW).toNat = k.val := by
  simp only [stateCode, BitVec.toNat_ofNat]
  exact Nat.mod_eq_of_lt (k.isLt.trans_le e.nMax)

/-- The row at an address below `N` (20_memory.md R51). -/
theorem Engine.row?_of_lt (e : Engine idW holdW) {x : StateId idW} (h : x.toNat < e.n) : e.row? x = some e.rows[x.toNat] := by
  simp [Engine.row?, h]

/-- Addresses `N..15` hold no row (20_memory.md R51). -/
theorem Engine.row?_of_ge (e : Engine idW holdW) {x : StateId idW} (h : e.n ≤ x.toNat) : e.row? x = none := by
  simp [Engine.row?, Nat.not_lt.mpr h]

/-- The outputs at an address below `N` (20_memory.md R52). -/
theorem Engine.outputs?_of_lt (e : Engine idW holdW) {x : StateId idW} (h : x.toNat < e.n) :
    e.outputs? x = some e.rows[x.toNat].toOutputs := by
  simp [Engine.outputs?, e.row?_of_lt h]

/-- Addresses `N..15` have no outputs. -/
theorem Engine.outputs?_of_ge (e : Engine idW holdW) {x : StateId idW} (h : e.n ≤ x.toNat) : e.outputs? x = none := by
  simp [Engine.outputs?, e.row?_of_ge h]

/-- Only addresses below `N` have outputs. -/
theorem Engine.lt_of_outputs? {e : Engine idW holdW} {x : StateId idW} {o : Outputs holdW} (h : e.outputs? x = some o) : x.toNat < e.n := by
  by_contra hn
  rw [e.outputs?_of_ge (Nat.not_lt.mp hn)] at h
  exact nomatch h

/-- An identifier's code addresses its row. -/
@[simp] theorem Engine.row?_stateCode (e : Engine idW holdW) (k : Fin e.n) : e.row? (stateCode k idW) = some e.rows[k.val] := by
  have h := e.stateCode_toNat k
  simp [Engine.row?, h]

/-- An identifier's code addresses its outputs. -/
@[simp] theorem Engine.outputs?_stateCode (e : Engine idW holdW) (k : Fin e.n) :
    e.outputs? (stateCode k idW) = some e.rows[k.val].toOutputs := by
  simp [Engine.outputs?]

/-- `START` addresses its outputs (10_state.md R29 (b)). -/
@[simp] theorem Engine.outputs?_startId (e : Engine idW holdW) : e.outputs? e.startId = some e.rows[e.start.val].toOutputs :=
  e.outputs?_stateCode e.start

/-- The next-state decoder at a legal state (41_step.md R111). -/
theorem nextStateDecoder_of_lt (e : Engine idW holdW) {x : StateId idW} (i : InputIndex) (h : x.toNat < e.n) :
    nextStateDecoder e x i = some (stateCode e.rows[x.toNat].next[i.val] idW) := by
  simp [nextStateDecoder, e.row?_of_lt h]

/-- Whatever the decoder answers is the code of an identifier of the table (10_state.md R29 (a)). -/
theorem nextStateDecoder_some {e : Engine idW holdW} {x : StateId idW} {i : InputIndex} {y : StateId idW}
    (h : nextStateDecoder e x i = some y) : ∃ k : Fin e.n, y = stateCode k idW := by
  obtain ⟨r, -, rfl⟩ := Option.map_eq_some_iff.mp h
  exact ⟨_, rfl⟩

@[simp] theorem recordStatus_ok (l : List Status) : recordStatus .ok l = l := rfl

/-- The record only grows (92_eei_decisions.md D20). -/
theorem recordStatus_grows (st : Status) (l : List Status) : ∃ l', recordStatus st l = l ++ l' := by
  cases st
  · exact ⟨[], by simp⟩
  · exact ⟨_, rfl⟩
  · exact ⟨_, rfl⟩

/-- After a reset a command is performed. -/
theorem whenReset_of_reset {s : State sampleW idW holdW} (h : s.wasReset = true) (r : Result sampleW idW holdW) : whenReset s r = r := by
  simp [whenReset, h]

/-- Before the first reset edge a command is a fault (70_reset_and_hazards.md R162). -/
theorem whenReset_of_not_reset {s : State sampleW idW holdW} (h : s.wasReset = false) (r : Result sampleW idW holdW) :
    whenReset s r = .fault .commandBeforeReset := by
  simp [whenReset, h]

/-- A guarded result is a next state only after a reset, and is then the result itself. -/
theorem whenReset_next {s t : State sampleW idW holdW} {r : Result sampleW idW holdW} (h : whenReset s r = .next t) : s.wasReset = true ∧ r = .next t := by
  unfold whenReset at h
  split at h
  · exact ⟨‹_›, h⟩
  · exact nomatch h

/-- `t` is `s` with `cur` at `x`, a state with outputs, and the response register loaded with `respond(st, x)`. -/
def Answers (s t : State sampleW idW holdW) (st : Status) (x : StateId idW) : Prop :=
  ∃ o, s.engine.outputs? x = some o ∧ t = (s.writeCur x).loadResponse st (responseWord st x o)

/-- `respond` at a state with outputs (00_scope.md R11, 30_encoding.md R87). -/
theorem respond_of_outputs (st : Status) {x : StateId idW} {s : State sampleW idW holdW} {o : Outputs holdW} (h : s.engine.outputs? x = some o) :
    respond st x s = .next (s.loadResponse st (responseWord st x o)) := by
  simp [respond, h]

/-- `respond` at the code of an identifier always answers. -/
theorem respond_stateCode (st : Status) (s : State sampleW idW holdW) (k : Fin s.engine.n) :
    respond st (stateCode k idW) s = .next (s.loadResponse st (responseWord st (stateCode k idW) s.engine.rows[k.val].toOutputs)) :=
  respond_of_outputs st (s.engine.outputs?_stateCode k)

/-- A move to an identifier of the table and its answer. -/
theorem respond_writeCur_stateCode (st : Status) (s : State sampleW idW holdW) (k : Fin s.engine.n) :
    respond st (stateCode k idW) (s.writeCur (stateCode k idW)) =
      .next ((s.writeCur (stateCode k idW)).loadResponse st
        (responseWord st (stateCode k idW) s.engine.rows[k.val].toOutputs)) :=
  respond_stateCode st (s.writeCur (stateCode k idW)) k

/-- `respond` at an identifier that names no state (93_implementation_defined.md I9). -/
theorem respond_of_no_outputs (st : Status) {x : StateId idW} {s : State sampleW idW holdW} (h : s.engine.outputs? x = none) :
    respond st x s = .fault (.noSuchState x) := by
  simp [respond, h]

/-- Everything `respond` after a write of `cur` can do: answer at a state that has outputs. -/
theorem respond_writeCur_next {st : Status} {x : StateId idW} {s t : State sampleW idW holdW}
    (h : respond st x (s.writeCur x) = .next t) : Answers s t st x := by
  unfold respond at h
  split at h
  · rename_i o ho
    cases h
    exact ⟨o, ho, rfl⟩
  · exact nomatch h

/-- Writing the value `cur` holds changes nothing. -/
@[simp] theorem State.writeCur_self (s : State sampleW idW holdW) : s.writeCur s.cur = s := rfl

/-- Everything `raise` can do: answer with `cur` kept (60_exceptions.md R140). -/
theorem raise_next {st : Status} {s t : State sampleW idW holdW} (h : raise st s = .next t) : Answers s t st s.cur :=
  respond_writeCur_next (x := s.cur) h

/-- Everything an illegal command can do (60_exceptions.md R138). -/
theorem illegalCommand_next {s t : State sampleW idW holdW} (h : illegalCommand s = .next t) :
    s.wasReset = true ∧ Answers s t .illegalCommand s.cur :=
  (whenReset_next h).imp_right raise_next

end Sys2Proof.Machine
end

