-- ==== Sys2Proof/Laws/Exec.lean ====
section
/-!
SUPPORT. What a command and a clock edge can do, said once.
-/

namespace Sys2Proof.Machine

variable {sampleW idW holdW : Nat}

/-- The index of a sample in range (41_step.md R110). -/
theorem sampleIndex_of_lt {v : Sample sampleW} (h : v.toNat < 8) : sampleIndex v = some ⟨v.toNat, h⟩ := by
  simp [sampleIndex, h]

/-- A sample above 7 has no index (41_step.md R110). -/
theorem sampleIndex_of_ge {v : Sample sampleW} (h : 8 ≤ v.toNat) : sampleIndex v = none := by
  simp [sampleIndex, Nat.not_lt.mpr h]

/-- The integer a sample of this hardware stands for (00_scope.md R12). -/
theorem sampleInt_eq (v : Sample) :
    sampleInt v = if v.toNat ≤ 127 then (v.toNat : Int) else (v.toNat : Int) - 256 := by
  unfold sampleInt
  exact if_congr (by simp [Config.sampleW, Nat.lt_succ_iff]) rfl rfl

/-- Everything STEP can do: move to an identifier of the table and answer OK, or answer OUT_OF_RANGE_INPUT in place. -/
theorem execStep_next {v : Sample sampleW} {s t : State sampleW idW holdW} (h : execStep v s = .next t) :
    s.wasReset = true ∧
      ((∃ i x, sampleIndex v = some i ∧ nextStateDecoder s.engine s.cur i = some x ∧ Answers s t .ok x) ∨
        (sampleIndex v = none ∧ Answers s t .outOfRangeInput s.cur)) := by
  obtain ⟨hr, h⟩ := whenReset_next h
  refine ⟨hr, ?_⟩
  split at h
  · exact .inr ⟨‹_›, raise_next h⟩
  · split at h
    · exact .inl ⟨_, _, ‹_›, ‹_›, respond_writeCur_next h⟩
    · exact nomatch h

/-- Everything a command can do: it is performed only after a reset, and then it answers at some state that has outputs. -/
theorem perform_next {i : Instr sampleW} {s t : State sampleW idW holdW} (h : perform i s = .next t) :
    s.wasReset = true ∧ ∃ st x, Answers s t st x := by
  cases i with
  | nop =>
    obtain ⟨hr, h⟩ := whenReset_next h
    exact ⟨hr, _, _, respond_writeCur_next (x := s.cur) (by simpa using h)⟩
  | init =>
    obtain ⟨hr, h⟩ := whenReset_next h
    exact ⟨hr, _, _, respond_writeCur_next h⟩
  | step v =>
    obtain ⟨hr, ⟨_, _, _, _, h⟩ | ⟨_, h⟩⟩ := execStep_next h
    · exact ⟨hr, _, _, h⟩
    · exact ⟨hr, _, _, h⟩
  | outputs =>
    obtain ⟨hr, h⟩ := whenReset_next h
    exact ⟨hr, _, _, respond_writeCur_next (x := s.cur) (by simpa using h)⟩

/-- The host's dispatch is the meaning of the command at this hardware's widths. -/
theorem exec_eq_perform (i : Instr) (s : State) : exec i s = perform i s := by
  cases i <;> rfl

/-- Everything a command of this hardware can do. -/
theorem exec_next {i : Instr} {s t : State} (h : exec i s = .next t) : s.wasReset = true ∧ ∃ st x, Answers s t st x :=
  perform_next (exec_eq_perform i s ▸ h)

/-- Everything an accepted word can do. -/
theorem acceptWord_next {w : CmdWord sampleW} {s t : State sampleW idW holdW} (h : acceptWord w s = .next t) :
    s.wasReset = true ∧ ∃ st x, Answers s t st x := by
  unfold acceptWord at h
  split at h
  · exact perform_next h
  · obtain ⟨hr, h⟩ := illegalCommand_next h
    exact ⟨hr, _, _, h⟩

/-- Everything a rising edge can do: reset, an answer to a command accepted after a reset, or nothing but `rsp_valid`. -/
theorem clockEdge_next {p : PortIn sampleW} {s t : State sampleW idW holdW} (h : clockEdge p s = .next t) :
    (p.rst = true ∧ t = s.resetEdge) ∨
      (p.rst = false ∧ p.cmdValid = true ∧ acceptWord p.cmd s = .next t) ∨
        (p.rst = false ∧ p.cmdValid = false ∧ t = s.idleEdge) := by
  unfold clockEdge at h
  split at h
  · cases h
    exact .inl ⟨‹_›, rfl⟩
  · split at h
    · exact .inr (.inl ⟨by simpa using ‹¬p.rst = true›, ‹_›, h⟩)
    · cases h
      exact .inr (.inr ⟨by simpa using ‹¬p.rst = true›, by simpa using ‹¬p.cmdValid = true›, rfl⟩)

/-- An answer leaves `cur` at a state of the table. -/
theorem Answers.cur_lt {s t : State sampleW idW holdW} {st : Status} {x : StateId idW} (h : Answers s t st x) : t.cur.toNat < t.engine.n := by
  obtain ⟨o, ho, rfl⟩ := h
  exact s.engine.lt_of_outputs? ho

/-- An answer changes `cur`, the response register and the record, and nothing else. -/
theorem Answers.frame {s t : State sampleW idW holdW} {st : Status} {x : StateId idW} (h : Answers s t st x) :
    t.engine = s.engine ∧ t.wasReset = s.wasReset ∧ t.inputs = s.inputs ∧ t.cur = x ∧ t.rspValid = true ∧
      t.errors = recordStatus st s.errors := by
  obtain ⟨o, -, rfl⟩ := h
  exact ⟨rfl, rfl, rfl, rfl, rfl, rfl⟩

@[simp] theorem State.withFetchWord_presented (s : State) (nbits w : Nat) :
    (s.withFetchWord nbits w).presented = PortIn.command (BitVec.ofNat Config.cmdW (w % 2 ^ nbits)) := rfl

@[simp] theorem State.withFetchWord_advance (s : State) (nbits w : Nat) :
    (s.withFetchWord nbits w).advance = s.advance := rfl

end Sys2Proof.Machine
end

