-- ==== Sys2Proof/Laws/Driver.lean ====
section
/-!
SUPPORT. What the host's loop depends on: not on the response register, so reading the outputs by an OUTPUTS command instead of
from the output ports changes no turn (40_controller_ops.md R105, notes/assumptions/22.md).
-/

namespace Sys2Proof.Machine

variable {sampleW idW holdW : Nat}

/-- Two states the host drives alike: the same engine, the same `cur`, both after a reset or both before it. The response
register, the model's record and the host's plan may differ. -/
def DrivesAlike (s t : State sampleW idW holdW) : Prop :=
  t.engine = s.engine ∧ t.cur = s.cur ∧ t.wasReset = s.wasReset

theorem DrivesAlike.symm {s t : State sampleW idW holdW} (h : DrivesAlike s t) : DrivesAlike t s :=
  ⟨h.1.symm, h.2.1.symm, h.2.2.symm⟩

theorem DrivesAlike.writeCur {s t : State sampleW idW holdW} (h : DrivesAlike s t) (x : StateId idW) :
    DrivesAlike (s.writeCur x) (t.writeCur x) := ⟨h.1, rfl, h.2.2⟩

/-- States driven alike answer alike, and stay so. -/
theorem respond_alike {st : Status} {x : StateId idW} {s t s' : State sampleW idW holdW} (hs : DrivesAlike s t)
    (h : respond st x s = .next s') : ∃ t', respond st x t = .next t' ∧ DrivesAlike s' t' := by
  unfold respond at h ⊢
  rw [hs.1]
  split at h
  · cases h
    exact ⟨_, rfl, hs⟩
  · exact nomatch h

theorem raise_alike {st : Status} {s t s' : State sampleW idW holdW} (hs : DrivesAlike s t)
    (h : raise st s = .next s') : ∃ t', raise st t = .next t' ∧ DrivesAlike s' t' := by
  unfold raise at h ⊢
  exact hs.2.1 ▸ respond_alike hs h

theorem whenReset_alike {s t s' : State sampleW idW holdW} {r r' : Result sampleW idW holdW} (hs : DrivesAlike s t)
    (h : whenReset s r = .next s') (hr : r = .next s' → ∃ t', r' = .next t' ∧ DrivesAlike s' t') :
    ∃ t', whenReset t r' = .next t' ∧ DrivesAlike s' t' := by
  obtain ⟨h₁, h₂⟩ := whenReset_next h
  obtain ⟨t', ht, a⟩ := hr h₂
  exact ⟨t', (if_pos (hs.2.2.trans h₁)).trans ht, a⟩

/-- A command takes states driven alike to states driven alike. -/
theorem perform_alike {i : Instr sampleW} {s t s' : State sampleW idW holdW} (hs : DrivesAlike s t)
    (h : perform i s = .next s') : ∃ t', perform i t = .next t' ∧ DrivesAlike s' t' := by
  cases i with
  | nop => exact whenReset_alike hs h fun h => hs.2.1 ▸ respond_alike hs h
  | init => exact whenReset_alike hs h fun h => hs.1 ▸ respond_alike (hs.writeCur _) h
  | step v =>
    refine whenReset_alike hs h fun h => ?_
    rw [hs.1, hs.2.1]
    split at h
    · exact raise_alike hs h
    · split at h
      · exact respond_alike (hs.writeCur _) h
      · exact nomatch h
  | outputs => exact whenReset_alike hs h fun h => hs.2.1 ▸ respond_alike hs h

/-- An edge with a command takes states driven alike to states driven alike. -/
theorem clockEdge_command_alike {w : CmdWord sampleW} {s t s' : State sampleW idW holdW} (hs : DrivesAlike s t)
    (h : clockEdge (PortIn.command w) s = .next s') :
    ∃ t', clockEdge (PortIn.command w) t = .next t' ∧ DrivesAlike s' t' := by
  change acceptWord w s = .next s' at h
  show ∃ t', acceptWord w t = .next t' ∧ DrivesAlike s' t'
  unfold acceptWord at h ⊢
  split at h
  · exact perform_alike hs h
  · exact whenReset_alike hs h (raise_alike hs)

/-- The host's loop takes the same turns from states driven alike. -/
theorem hostLoop_alike : ∀ (vs : List (TurnInput sampleW)) (now : Nat) (s t : State sampleW idW holdW), DrivesAlike s t →
    hostLoop now vs t = hostLoop now vs s
  | [], _, _, _, _ => rfl
  | v :: vs, now, s, t, hs => by
    simp only [hostLoop, hs.1, hs.2.1]
    cases s.engine.outputs? s.cur with
    | none => rfl
    | some o =>
      simp only [List.cons.injEq, true_and]
      cases h : clockEdge (PortIn.command (encode (.step v.sample))) s with
      | next s' =>
        obtain ⟨t', ht, a⟩ := clockEdge_command_alike hs h
        simp only [ht]
        exact hostLoop_alike vs _ s' t' a
      | _ =>
        cases h' : clockEdge (PortIn.command (encode (.step v.sample))) t with
        | next t' =>
          obtain ⟨_, hn, _⟩ := clockEdge_command_alike hs.symm h'
          exact nomatch h.symm.trans hn
        | _ => rfl

/-- The loop takes the same turns whether or not the host reads the outputs by an OUTPUTS command first (40_controller_ops.md R105,
70_reset_and_hazards.md R167). -/
theorem hostLoop_after_outputs {s t : State sampleW idW holdW} (h : perform .outputs s = .next t) (now : Nat)
    (vs : List (TurnInput sampleW)) : hostLoop now vs t = hostLoop now vs s := by
  obtain ⟨-, h⟩ := whenReset_next h
  obtain ⟨o, -, rfl⟩ := respond_writeCur_next (x := s.cur) h
  exact hostLoop_alike vs now s _ ⟨rfl, rfl, rfl⟩

end Sys2Proof.Machine
end

