-- ==== Sys2Proof/Laws/PerInstr.lean ====
section
/-!
SUPPORT. The per-instruction family `Encoding`: an encoded command's word has the command's opcode and operand in their
fields and the reserved field 0 (30_encoding.md R79).
-/

namespace Sys2Proof.Laws.Encoding

/-- The three fields of the word of `i`. -/
def Statement (i : Instr) : Prop :=
  opField (encode i) = i.opcode ∧ rsvField (encode i) = 0 ∧ operandField (encode i) = i.operand

theorem nop : Statement .nop := by simp [Statement, encode]

theorem init : Statement .init := by simp [Statement, encode]

theorem step (sample : Sample) : Statement (.step sample) := by simp [Statement, encode]

theorem outputs : Statement .outputs := by simp [Statement, encode]

end Sys2Proof.Laws.Encoding
end

