-- ==== Sys2Proof/Laws/Run.lean ====
section
/-!
SUPPORT. Runs unrolled by one edge or one command.
-/

namespace Sys2Proof.Machine

variable {sampleW idW holdW : Nat} {α β : Type}

@[simp] theorem andThen_next (a : α) (k : α → Host.Outcome β (Fault idW) Refusal) : andThen (.next a) k = k a := rfl

@[simp] theorem andThen_fault (f : Fault idW) (k : α → Host.Outcome β (Fault idW) Refusal) :
    andThen (.fault f) k = .fault f := rfl

@[simp] theorem andThen_refused (q : Refusal) (k : α → Host.Outcome β (Fault idW) Refusal) :
    andThen (.refused q) k = .refused q := rfl

/-- A composed run is a next state only where both parts are. -/
theorem andThen_eq_next {r : Host.Outcome α (Fault idW) Refusal} {k : α → Host.Outcome β (Fault idW) Refusal} {b : β}
    (h : andThen r k = .next b) : ∃ a, r = .next a ∧ k a = .next b := by
  cases r with
  | next a => exact ⟨a, rfl, h⟩
  | fault f => exact nomatch h
  | refused q => exact nomatch h

@[simp] theorem runEdges_zero (s : State sampleW idW holdW) : runEdges 0 s = .next s := rfl

theorem runEdges_succ (k : Nat) (s : State sampleW idW holdW) : runEdges (k + 1) s = andThen (stepAt s) (runEdges k) := rfl

/-- A run of one edge more is a next state only where its first edge is. -/
theorem runEdges_succ_next {k : Nat} {s u : State sampleW idW holdW} (h : runEdges (k + 1) s = .next u) :
    ∃ t, stepAt s = .next t ∧ runEdges k t = .next u := andThen_eq_next h

/-- The host's run of the machine, unrolled by one step. -/
theorem core_run_succ (k : Nat) (s : State) :
    Host.Core.run core (k + 1) s = andThen (step s) (fun t => Host.Core.run core k t) := by
  have unrolled : ∀ (M : Host.Core) (u : M.State), M.run (k + 1) u =
      match M.step u with
      | .next t => M.run k t
      | .fault f => .fault f
      | .refused q => .refused q := fun _ _ => rfl
  refine (unrolled core s).trans ?_
  generalize h : core.step s = o
  rw [show step s = o from h]
  cases o <;> rfl

/-- The host's run of the machine is a run of edges. -/
theorem core_run_eq : ∀ (k : Nat) (s : State), Host.Core.run core k s = runEdges k s
  | 0, _ => rfl
  | k + 1, s => (core_run_succ k s).trans (congrArg (andThen (step s)) (funext (core_run_eq k)))

@[simp] theorem edgesOn_nil (s : State sampleW idW holdW) : edgesOn [] s = .next s := rfl

theorem edgesOn_cons (p : PortIn sampleW) (ps : List (PortIn sampleW)) (s : State sampleW idW holdW) :
    edgesOn (p :: ps) s = andThen (clockEdge p s) (edgesOn ps) := rfl

@[simp] theorem acceptWords_nil (s : State sampleW idW holdW) : acceptWords [] s = .next s := rfl

theorem acceptWords_cons (w : CmdWord sampleW) (ws : List (CmdWord sampleW)) (s : State sampleW idW holdW) :
    acceptWords (w :: ws) s = andThen (acceptWord w s) (acceptWords ws) := rfl

/-- An edge with a command of the plan accepts it, and the rest of the plan stays. -/
theorem step_withCommands (w : CmdWord sampleW) (ws : List (CmdWord sampleW)) (s : State sampleW idW holdW) :
    stepAt (s.withCommands (w :: ws)) = acceptWord w (s.withCommands ws) := rfl

/-- A property that every edge keeps holds after every run of edges. -/
theorem runEdges_keeps {P : State sampleW idW holdW → Prop} (hP : ∀ s t, P s → stepAt s = .next t → P t) :
    ∀ (k : Nat) (s t : State sampleW idW holdW), P s → runEdges k s = .next t → P t
  | 0, s, t, hs, h => by
    cases h
    exact hs
  | k + 1, s, t, hs, h => by
    obtain ⟨u, hu, ht⟩ := runEdges_succ_next h
    exact runEdges_keeps hP k u t (hP s u hs hu) ht

end Sys2Proof.Machine
end

