-- ==== Sys2Proof/Tests/Slice0.lean ====
section
/-!
SUPPORT. Tests on fixed values. Every expected result is taken from the spec (the vectors of 95_test_vectors.md unless another
rule is named), and every `witness_` theorem shows values that meet all hypotheses of the statement it is named after, one per
clause at a boundary of its range.
-/

namespace Sys2Proof.Tests

open Sys2Proof.Machine

/-- This hardware after a reset, moved to state `x`. -/
def stateAt (x : StateId) : State := { State.reset with cur := x }

/-- This hardware before its first reset edge, its registers at values of no meaning. -/
def unreset : State := State.powerOn thisEngine 13#4 0x5555#48 true

/-- `s` with `p` on the ports at the next edge. -/
def presenting (p : PortIn) (s : State) : State := { s with inputs := [p] }

/-- `s` with the word `w` presented at the next edge. -/
def withWord (w : CmdWord) (s : State) : State := presenting (PortIn.command w) s

/-- What a test looks at in a next state: `cur`, `rsp`, `rsp_valid`. -/
def shown : Result → Option (StateId × RspWord × Bool)
  | .next s => some (s.cur, s.rsp, s.rspValid)
  | .fault _ => none
  | .refused _ => none

/-- The fault an outcome is, if it is one. -/
def faultOf : Result → Option Fault
  | .next _ => none
  | .fault f => some f
  | .refused _ => none

/-- The reason an image is refused for, if it is. -/
def reasonOf : Except InvalidTable Engine → Option InvalidTable
  | .ok _ => none
  | .error r => some r

/-! ## Syntax and encoding -/

/-- R90: the numbers next to the range are ill formed. -/
theorem test_wf_refuses_step_out_of_range :
    (AsmLine.step (-129)).wf = false ∧ (AsmLine.step 256).wf = false := by decide

/-- R90: the ends of the range are well formed. -/
theorem test_wf_accepts_ends :
    (AsmLine.step (-128)).wf = true ∧ (AsmLine.step 255).wf = true ∧ AsmLine.nop.wf = true ∧ AsmLine.init.wf = true ∧
      AsmLine.outputs.wf = true ∧ (AsmLine.raw 0xFFFF#16).wf = true := by decide

/-- R81. -/
theorem test_decode_nop : (decode 0b0000000000000000#16).toOption = some .nop := by decide

/-- R82. -/
theorem test_decode_init : (decode 0b0000000000000001#16).toOption = some .init := by decide

/-- R83, an asymmetric operand. -/
theorem test_decode_step : (decode 0b1011000100000010#16).toOption = some (.step 0xB1#8) := by decide

/-- R84. -/
theorem test_decode_outputs : (decode 0b0000000000000011#16).toOption = some .outputs := by decide

/-- Vectors X1 to X9: no command is read from an illegal word. -/
theorem test_decode_illegal_words :
    [0x0004#16, 0x000F#16, 0x0012#16, 0xFF12#16, 0x0101#16, 0x0103#16, 0x0100#16, 0x00F2#16, 0xFFFF#16].all
      (fun w => (decode w).toOption.isNone) = true := by decide

/-- R83's examples. -/
theorem test_encode_step :
    encode (.step 4) = 0x0402#16 ∧ encode (.step 255) = 0xFF02#16 ∧ assemble (.step (-1)) = some 0xFF02#16 := by decide

/-- The opcode table numbers bit 0 as the least significant bit of the one word. -/
theorem test_decodeTableWord :
    decodeTableWord 16 0x0402 = some (.step 4) ∧ decodeTableWord 16 0x0101 = none ∧ decodeTableWord 8 0x0003 = some .outputs :=
  by decide

/-- A source line of program P1. -/
theorem test_parse_step :
    (parseLine "STEP 2   ; S car: goW -> waitW".toList).toOption = some (some (.step 2)) := by decide

/-- R90: a hexadecimal operand, a raw word, a comment alone. -/
theorem test_parse_other_lines :
    (parseLine "STEP 0xFF".toList).toOption = some (some (.step 255)) ∧
      (parseLine ".cmd 0xFF12".toList).toOption = some (some (.raw 0xFF12#16)) ∧
      (parseLine "; nothing".toList).toOption = some none ∧ (parseLine "STEP 256".toList).toOption = none := by decide

/-! ## Commands, one step each -/

/-- Vector 2.1, flashOFF2. -/
theorem test_nop_flashOFF2 : shown (step (withWord 0x0000#16 (stateAt 8))) = some (8, 0x000000142480#48, true) := by decide

/-- Vector 2.2, goPed. -/
theorem test_init_goPed : shown (step (withWord 0x0001#16 (stateAt 4))) = some (0, 0x000000644C00#48, true) := by decide

/-- Vector 2.4, (8, 6): the row with four different successors. -/
theorem test_step_flashOFF2_6 : shown (step (withWord 0x0602#16 (stateAt 8))) = some (2, 0x000000646120#48, true) := by decide

/-- Vector E4: 128 is out of range. -/
theorem test_step_128 : shown (step (withWord 0x8002#16 (stateAt 4))) = some (4, 0x00000064A441#48, true) := by decide

/-- Vector 2.3, waitS. -/
theorem test_outputs_waitS : shown (step (withWord 0x0003#16 (stateAt 3))) = some (3, 0x000000326230#48, true) := by decide

/-- Vector X4: illegal wins over out of range. -/
theorem test_illegal_wins : shown (step (withWord 0xFF12#16 (stateAt 0))) = some (0, 0x000000644C02#48, true) := by decide

/-- R160, R161: reset wins over a command, and keeps `rsp`. -/
theorem test_reset_wins :
    shown (step (presenting { rst := true, cmdValid := true, cmd := 0x0003 } { stateAt 6 with rsp := 0x142460, rspValid := true })) =
      some (0, 0x142460#48, false) := by decide

/-- R78, R89: an idle edge. -/
theorem test_idle_edge : shown (step { stateAt 6 with rsp := 0x142460, rspValid := true }) = some (6, 0x142460#48, false) := by
  decide

/-- R162: a command before the first reset. -/
theorem test_command_before_reset : faultOf (step (withWord 0x0000#16 unreset)) = some .commandBeforeReset := by decide

/-- I9: `cur` names no state of this hardware. -/
theorem test_no_such_state : faultOf (step (withWord 0x0003#16 (stateAt 9))) = some (.noSuchState 9) := by decide

/-- The host's placed word runs as the first command after reset. -/
theorem test_withFetchWord : shown (step (State.reset.withFetchWord 16 0x0702)) = some (1, 0x000000325410#48, true) := by decide

/-- The response of vector X7, read field by field. -/
theorem test_host_reads_response :
    (readResponse (0x000000325412 : RspWord)).toOption =
      some { status := .illegalCommand, state := 1, primary := 0x14, ped := 0b01, hold := 50 } := by decide

/-! ## Construction -/

/-- Vector B16 and S4: the image of one self-looping row. -/
def smallImage : List Byte := [1, 0, 0x24, 1, 0x14, 0, 0, 0, 0, 0, 0, 0, 0, 0, 0, 0]

/-- The engine of vector B16. -/
def smallEngine : Engine :=
  { n := 1, nPos := by decide, nMax := by decide, start := 0,
    rows := #v[{ primary := 0x24, ped := 0b01, hold := 20, next := #v[0, 0, 0, 0, 0, 0, 0, 0] }] }

/-- Vectors B16 and S4. -/
theorem test_build_small : build smallImage = .ok smallEngine ∧ serialize smallEngine = smallImage := ⟨by rfl, by rfl⟩

/-- Vectors B2, B4, B6, B7. -/
theorem test_build_header_failures :
    reasonOf (build (thisImage.set 0 0)) = some .badCount ∧ reasonOf (build (thisImage.take 127)) = some .badLength ∧
      reasonOf (build [9]) = some .badLength ∧ reasonOf (build (thisImage.set 1 9)) = some .badStart := by decide +kernel

/-- Vectors B8, B9, B10, B12. -/
theorem test_build_row_failures :
    reasonOf (build (thisImage.set 2 0x4C)) = some .reservedBits ∧ reasonOf (build (thisImage.set 31 5)) = some .reservedBits ∧
      reasonOf (build (thisImage.set 127 9)) = some .danglingNext ∧
      reasonOf (build ((thisImage.set 44 0x80).set 50 12)) = some .reservedBits := by decide +kernel

/-! ## Witnesses: encoding -/

theorem witness_EncodeInvertsDecode : decode 0x0702#16 = .ok (.step 7) := by rfl

theorem witness_DecodeRejectsExactlyIllegalWords :
    IllegalByRule 0x0004#16 ∧ IllegalByRule 0x000F#16 ∧ IllegalByRule 0x0012#16 ∧ IllegalByRule 0x0101#16 ∧
      ¬IllegalByRule 0x0003#16 ∧ ¬IllegalByRule 0xFF02#16 := by decide

theorem witness_SampleReadAsInteger :
    (127#8).toNat ≤ 127 ∧ sampleInt 127#8 = 127 ∧ 128 ≤ (128#8).toNat ∧ sampleInt 128#8 = -128 ∧ sampleInt 255#8 = -1 ∧
      (7#8).toNat ≤ 7 ∧ ¬(8#8).toNat ≤ 7 := by decide

theorem witness_StepLineAssembles :
    assemble (.step (-128)) = some 0x8002#16 ∧ assemble (.step 255) = some 0xFF02#16 ∧ assemble (.step (-129)) = none ∧
      assemble (.step 256) = none := by decide

/-! ## Witnesses: the four commands -/

theorem witness_NopAnswersInPlace : (stateAt 0).Legal ∧ (stateAt 8).Legal := by decide

/-- INIT needs only a reset: `cur` may name no state. -/
theorem witness_InitGoesToStart : (stateAt 8).wasReset = true ∧ (stateAt 15).wasReset = true := by decide

theorem witness_OutputsIsAPureRead : (stateAt 0).Legal ∧ (stateAt 8).Legal := by decide

theorem witness_StepLooksUpTheTable :
    (stateAt 8).Legal ∧ (0#8).toNat < 8 ∧ (7#8).toNat < 8 ∧ 8 ≤ (8#8).toNat ∧ 8 ≤ (255#8).toNat := by decide

theorem witness_CommandFrame :
    (∃ t, exec .nop (stateAt 8) = .next t) ∧ (∃ t, exec .init (stateAt 8) = .next t) ∧
      (∃ t, exec .outputs (stateAt 8) = .next t) ∧ ((∃ t, exec (.step 7) (stateAt 8) = .next t) ∧ (7#8).toNat ≤ 7) ∧
      ((∃ t, exec (.step 8) (stateAt 8) = .next t) ∧ 7 < (8#8).toNat) :=
  ⟨⟨_, rfl⟩, ⟨_, rfl⟩, ⟨_, rfl⟩, ⟨⟨_, rfl⟩, by decide⟩, ⟨_, rfl⟩, by decide⟩

theorem witness_CommandsStopOnlyWithoutAState :
    unreset.wasReset = false ∧
      ((stateAt 9).wasReset = true ∧ (stateAt 9).engine.n ≤ (stateAt 9).cur.toNat ∧ (Instr.step 8 : Instr) ≠ .init) ∧
      (stateAt 8).Legal := by decide

theorem witness_InitAgreesWithReset : ∃ t, exec .init (stateAt 5) = .next t ∧ (stateAt 5).engine = thisEngine :=
  ⟨_, rfl, rfl⟩

/-! ## Witnesses: edges -/

theorem witness_EdgeRunsDecodedCommand :
    (withWord 0x0402#16 (stateAt 1)).accepting ∧ decode (withWord 0x0402#16 (stateAt 1)).presented.cmd = .ok (.step 4) :=
  ⟨by decide, rfl⟩

/-- One state for each of R85 (a), (b), (c). -/
theorem witness_IllegalWordAnsweredInPlace :
    (stateAt 8).Legal ∧
      ((withWord 0x0004#16 (stateAt 8)).accepting ∧ IllegalByRule (withWord 0x0004#16 (stateAt 8)).presented.cmd) ∧
      ((withWord 0x00F2#16 (stateAt 8)).accepting ∧ IllegalByRule (withWord 0x00F2#16 (stateAt 8)).presented.cmd) ∧
      ((withWord 0x0103#16 (stateAt 8)).accepting ∧ IllegalByRule (withWord 0x0103#16 (stateAt 8)).presented.cmd) := by decide

/-- With a command and without one, before the first reset too. -/
theorem witness_ResetEdgeGoesToStart :
    (presenting PortIn.reset unreset).presented.rst = true ∧
      (presenting { rst := true, cmdValid := true, cmd := 0x0004 } (stateAt 8)).presented.rst = true := by decide

theorem witness_IdleEdgeOnlyDropsValid :
    (stateAt 8).presented.rst = false ∧ (stateAt 8).presented.cmdValid = false ∧
      (presenting PortIn.idle unreset).presented.rst = false ∧ (presenting PortIn.idle unreset).presented.cmdValid = false := by
  decide

/-- A legal word and an illegal one. -/
theorem witness_CommandBeforeResetFaults :
    (withWord 0x0001#16 unreset).wasReset = false ∧ (withWord 0x0001#16 unreset).accepting ∧
      (withWord 0x0004#16 unreset).wasReset = false ∧ (withWord 0x0004#16 unreset).accepting := by decide

theorem witness_ResponseLayoutOfEveryAnswer :
    ((withWord 0x0702#16 (stateAt 8)).Legal ∧ (withWord 0x0702#16 (stateAt 8)).accepting) ∧
      ((withWord 0xFFFF#16 (stateAt 8)).Legal ∧ (withWord 0xFFFF#16 (stateAt 8)).accepting) := by decide

/-- One state for each clause: reset, an illegal word, a sample out of range (8), one in range (7) and a command without one. -/
theorem witness_FirstConditionDecidesStatus :
    ((presenting { rst := true, cmdValid := true, cmd := 0xFF12 } (stateAt 8)).Legal ∧
      (presenting { rst := true, cmdValid := true, cmd := 0xFF12 } (stateAt 8)).presented.rst = true) ∧
    ((withWord 0xFF12#16 (stateAt 8)).accepting ∧ IllegalByRule 0xFF12#16) ∧
    ((withWord 0x0802#16 (stateAt 8)).accepting ∧ ¬IllegalByRule 0x0802#16 ∧ (0x0802#16).extractLsb' 0 4 = 0x2#4 ∧
      7 < ((0x0802#16).extractLsb' 8 8).toNat) ∧
    ((withWord 0x0702#16 (stateAt 8)).accepting ∧ ¬IllegalByRule 0x0702#16 ∧
      ¬((0x0702#16).extractLsb' 0 4 = 0x2#4 ∧ 7 < ((0x0702#16).extractLsb' 8 8).toNat)) ∧
    ((withWord 0x0003#16 (stateAt 8)).accepting ∧ ¬IllegalByRule 0x0003#16) := by decide

/-- An accepting edge, an idle edge and a reset edge that answer. -/
theorem witness_ResponseRegisterTiming :
    ((∃ t, step (withWord 0x0802#16 (stateAt 8)) = .next t) ∧ (withWord 0x0802#16 (stateAt 8)).accepting) ∧
      ((∃ t, step (stateAt 8) = .next t) ∧ ¬(stateAt 8).accepting) ∧
      ((∃ t, step (presenting PortIn.reset unreset) = .next t) ∧ ¬(presenting PortIn.reset unreset).accepting) :=
  ⟨⟨⟨_, rfl⟩, by decide⟩, ⟨⟨_, rfl⟩, by decide⟩, ⟨_, rfl⟩, by decide⟩

/-- A reset, an INIT and a STEP of 7 that each move `cur`; INIT from a state that is none. -/
theorem witness_CurWrittenOnlyByResetInitStep :
    (∃ t, step (presenting PortIn.reset (stateAt 8)) = .next t ∧ t.cur ≠ (stateAt 8).cur) ∧
      (∃ t, step (withWord 0x0001#16 (stateAt 8)) = .next t ∧ t.cur ≠ (stateAt 8).cur) ∧
      (∃ t, step (withWord 0x0702#16 (stateAt 8)) = .next t ∧ t.cur ≠ (stateAt 8).cur) ∧
      (stateAt 8).cur.toNat < (stateAt 8).engine.n :=
  ⟨⟨_, rfl, by decide⟩, ⟨_, rfl, by decide⟩, ⟨_, rfl, by decide⟩, by decide⟩

theorem witness_TableFixedForLife :
    ∃ t, runEdges 2 ((stateAt 0).withCommands [0x0202#16, 0xFFFF#16]) = .next t := ⟨_, rfl⟩

/-- A next state with a valid response, one without, and a fault. -/
theorem witness_ResponseRegisterIsNeverRead :
    (∃ t, step (withWord 0x0202#16 (stateAt 0)) = .next t ∧ t.rspValid = true) ∧
      (∃ t, step (stateAt 0) = .next t ∧ t.rspValid = false) ∧
      (∃ f, step (withWord 0x0202#16 (stateAt 9)) = .fault f) :=
  ⟨⟨_, rfl, rfl⟩, ⟨_, rfl, rfl⟩, ⟨_, rfl⟩⟩

/-- Each of the three statuses, and an edge without a response. -/
theorem witness_RecordTakesEveryErrorStatus :
    (∃ t, step (withWord 0x0802#16 (stateAt 0)) = .next t ∧ t.rspValid = true ∧ t.rsp.extractLsb' 0 2 = 0b01#2) ∧
      (∃ t, step (withWord 0x0004#16 (stateAt 0)) = .next t ∧ t.rspValid = true ∧ t.rsp.extractLsb' 0 2 = 0b10#2) ∧
      (∃ t, step (withWord 0x0003#16 (stateAt 0)) = .next t ∧ t.rspValid = true ∧ t.rsp.extractLsb' 0 2 = 0b00#2) ∧
      ∃ t, step { stateAt 0 with rsp := 0b01 } = .next t ∧ t.rspValid = false :=
  ⟨⟨_, rfl, by decide, by decide⟩, ⟨_, rfl, by decide, by decide⟩, ⟨_, rfl, by decide, by decide⟩, _, rfl, by decide⟩

/-! ## Witnesses: the invariant and runs -/

/-- A state in goS with its response on the port. -/
def answered : State := { stateAt 2 with rsp := 0x000000646120, rspValid := true }

/-- After a reset with a valid response; before one, with registers of no meaning. -/
theorem witness_EveryEdgeKeepsInv :
    (answered.Inv ∧ answered.rspValid = true ∧ ∃ t, step (withWord 0x0002#16 answered) = .next t) ∧
      (unreset.Inv ∧ ∃ t, step (presenting PortIn.reset unreset) = .next t) :=
  ⟨⟨by decide, rfl, _, rfl⟩, by decide, _, rfl⟩

theorem witness_BlockNeverHalts : answered.wasReset = true ∧ answered.Inv := by decide

/-- An illegal word, and a sample just out of range. -/
theorem witness_ErrorsArePreciseAndLocal :
    (stateAt 8).Legal ∧ IllegalByRule 0x0100#16 ∧ encode (.step 8) = 0x0802#16 ∧ 7 < (8#8).toNat := by decide

theorem witness_StepCommandsRefineContract :
    (stateAt 8).wasReset = true ∧ (stateAt 8).cur = stateCode (⟨8, by decide⟩ : Fin (stateAt 8).engine.n) := by decide

/-- Two instances, each with a command to accept. -/
def pair : Vector State 2 := #v[withWord 0x0202#16 (stateAt 0), withWord 0x0001#16 (stateAt 8)]

theorem witness_InstancesAreIndependent :
    (0 : Fin 2) ≠ 1 ∧ (∃ g, stepInstance 1 pair = .next g) ∧ (∃ t, step pair[0] = .next t) ∧ ∃ t, step pair[1] = .next t :=
  ⟨by decide, ⟨_, rfl⟩, ⟨_, rfl⟩, _, rfl⟩

/-! ## Witnesses: outputs -/

theorem witness_OutputsAreMoore : (stateAt 0).Legal ∧ (stateAt 8).Legal := by decide

theorem witness_OutputsResponseEqualsPorts : (stateAt 0).Legal ∧ (stateAt 8).Legal := by decide

theorem witness_HostReadsBackResponses :
    (0x4#48).extractLsb' 2 2 ≠ 0#2 ∧ ((0x3#48).extractLsb' 2 2 = 0#2 ∧ (0x3#48).extractLsb' 0 2 = 0b11#2) ∧
      State.reset.rspValid = false := by decide

theorem witness_ResetOutputsAreGoW :
    (presenting PortIn.reset (stateAt 8)).engine = thisEngine ∧ (presenting PortIn.reset (stateAt 8)).presented.rst = true :=
  ⟨rfl, by decide⟩

/-! ## Witnesses: construction -/

theorem witness_SerializeInvertsBuild : build smallImage = .ok smallEngine := by rfl

theorem witness_BuildReadsEveryField : build smallImage = .ok smallEngine ∧ smallEngine.n = 1 := ⟨by rfl, rfl⟩

/-- The header failures at their boundaries: a length of 1 and one byte short of 16, `N` of 0 and of 17, `START` of `N`. -/
theorem witness_BuildReportsFirstFailure_header :
    [1#8].length < 2 ∧
      (1 ≤ (byteAt (smallImage.take 15) 0).toNat ∧ (byteAt (smallImage.take 15) 0).toNat ≤ 16 ∧
        (smallImage.take 15).length ≠ 2 + 14 * (byteAt (smallImage.take 15) 0).toNat) ∧
      (2 ≤ (smallImage.set 0 0).length ∧ (byteAt (smallImage.set 0 0) 0).toNat < 1) ∧
      (2 ≤ (smallImage.set 0 17).length ∧ 16 < (byteAt (smallImage.set 0 17) 0).toNat) ∧
      ((smallImage.set 1 1).length = 2 + 14 * (byteAt (smallImage.set 1 1) 0).toNat ∧
        (byteAt (smallImage.set 1 1) 0).toNat ≤ (byteAt (smallImage.set 1 1) 1).toNat) := by decide

/-- A legal image, and the row failures at their boundaries: bit 6 of `primary`, bit 2 of `ped`, a successor of `N`. -/
theorem witness_BuildReportsFirstFailure_rows :
    (HeaderLegal smallImage ∧ ∀ s < (byteAt smallImage 0).toNat, RowLegal smallImage s) ∧
      (HeaderLegal (smallImage.set 2 0x40) ∧ RowReserved (smallImage.set 2 0x40) 0) ∧
      (HeaderLegal (smallImage.set 3 0x04) ∧ RowReserved (smallImage.set 3 0x04) 0) ∧
      (HeaderLegal (smallImage.set 15 1) ∧ ¬RowReserved (smallImage.set 15 1) 0 ∧ RowDangling (smallImage.set 15 1) 0) := by
  decide

/-! ## Witnesses: this hardware's table and the host -/

theorem witness_GoPedLeavesOnlyForCars :
    (stateAt 4).engine = thisEngine ∧ (stateAt 4).wasReset = true ∧ (stateAt 4).cur = 4 ∧
      ∀ v ∈ [0#8, 3#8, 4#8, 7#8], v.toNat ≤ 7 := ⟨rfl, by decide⟩

theorem witness_FlashStatesAdvance :
    (∀ x ∈ [5#4, 6#4, 7#4], (stateAt x).wasReset = true ∧ (stateAt x).cur = x) ∧ (stateAt 7).engine = thisEngine ∧
      (0#8).toNat ≤ 7 ∧ (7#8).toNat ≤ 7 := ⟨by decide, rfl, by decide⟩

theorem witness_SensorsDecideSuccessor :
    (stateAt 0).cur = StateName.goW.code ∧ (stateAt 8).cur = StateName.flashOFF2.code ∧ (stateAt 8).wasReset = true ∧
      packSensors true true true = 7#8 ∧ (7#8).toNat ≤ 7 := by decide

theorem witness_FourStepsLeaveFlashCycle :
    (stateAt 5).engine = thisEngine ∧ (stateAt 5).wasReset = true ∧ (stateAt 5).cur = 5 ∧ (0#8).toNat ≤ 7 ∧ (7#8).toNat ≤ 7 :=
  ⟨rfl, by decide⟩

theorem witness_EveryStateReachableFromGoW :
    State.reset.engine = thisEngine ∧ State.reset.wasReset = true ∧ State.reset.cur = 0 := ⟨rfl, by decide⟩

theorem witness_EachStateShowsItsLights :
    (stateAt 8).engine = thisEngine ∧ (stateAt 8).wasReset = true ∧ (stateAt 8).cur = StateName.flashOFF2.code :=
  ⟨rfl, by decide⟩

theorem witness_LightsNeverConflict :
    answered.engine = thisEngine ∧ answered.wasReset = true ∧ answered.Inv ∧
      ∃ t, runEdges 2 (answered.withCommands [0x0002#16, 0x0402#16]) = .next t := ⟨rfl, by decide, by decide, _, rfl⟩

/-- A turn that waits no longer than the hold time (200 ms), with a sample in range, and one that waits longer, with a sample out of
range. -/
theorem witness_HostLoopKeepsDwell :
    (stateAt 8).Legal ∧
      ((hostLoop 7 [{ extraMs := 0, sample := 4 }] (stateAt 8)).head?.map Turn.stepTime) = some 207 ∧
      ((hostLoop 7 [{ extraMs := 30, sample := 8 }] (stateAt 8)).head?.map Turn.stepTime) = some 237 := by decide

/-! ## Witnesses: another choice of a parameter -/

/-- An engine of one self-looping row with 1-bit identifiers and 16-bit holds. -/
def narrowEngine : Engine 1 16 :=
  { n := 1, nPos := by decide, nMax := by decide, start := 0,
    rows := #v[{ primary := 0x24, ped := 0b01, hold := 20, next := #v[0, 0, 0, 0, 0, 0, 0, 0] }] }

/-- The machine of that engine with samples of `sampleW` bits, after its reset edge. -/
def narrowState (sampleW : Nat) : State sampleW 1 16 := (State.powerOn narrowEngine 1 0 true sampleW).resetEdge

/-- Each width clause at its boundary, and this hardware's width. -/
theorem witness_SampleRangeAtEveryWidth :
    sampleIndex (7#3) = some 7 ∧ sampleInt (7#3) = 7 ∧ sampleIndex (8#4) = none ∧ sampleInt (8#4) = -8 ∧
      sampleIndex (8#8) = none := by decide

theorem witness_CodecAtEveryWidth : decode (0x702 : CmdWord 3) = .ok (.step 7) := by rfl

theorem witness_RunsAtEveryWidth : (narrowState 3).wasReset = true ∧ (narrowState 3).Inv := by decide

/-- An edge with a valid response at 3 bits, and a legal state at 4 bits. -/
theorem witness_OutOfRangeNeedsFourBits :
    (∃ t, stepAt ((narrowState 3).presentCommand 0x702) = .next t ∧ t.rspValid = true) ∧ (narrowState 4).Legal :=
  ⟨⟨_, rfl, rfl⟩, by decide⟩

theorem witness_RoundTripAtEveryWidth : build smallImage 1 16 = .ok narrowEngine ∧ serialize narrowEngine = smallImage :=
  ⟨by rfl, by rfl⟩

/-- Hold 65535 fits 16 bits and 65536 does not; this hardware takes both. -/
theorem witness_NarrowHoldRefusesLongHolds :
    (build ((smallImage.set 4 0xFF).set 5 0xFF) Config.idW 16).toOption.isSome = true ∧
      (build (smallImage.set 6 1) Config.idW 16).toOption.isSome = false ∧
      (build (smallImage.set 6 1)).toOption.isSome = true := by decide +kernel

/-- R7, D3: 3-bit identifiers name 8 states, so this hardware's image of 9 rows is refused. -/
theorem test_build_narrow_identifiers : (build thisImage 3).toOption.isSome = false := by decide +kernel

/-- D5: at 4 bits a STEP of 8 is out of range. -/
theorem test_step_four_bits :
    (match stepAt ((narrowState 4).presentCommand 0x802) with
      | .next t => t.rsp.extractLsb' 0 2
      | .fault _ => 0
      | .refused _ => 0) = 0b01#2 := by decide

/-- R166, log entry 19: a STEP of 8 in goW does not use up the elapsed hold, and does not end it early. -/
theorem test_dwell_after_out_of_range :
    keepsDwell 0 0 [{ time := 1000, port := PortIn.command 0x0802 }, { time := 1000, port := PortIn.command 0x0202 }] (stateAt 0) = true ∧
      keepsDwell 0 0 [{ time := 999, port := PortIn.command 0x0802 }] (stateAt 0) = false := by decide

/-- R161, log entry 17: a STEP under reset is lost and is not counted as presented. -/
theorem test_step_under_reset_not_presented :
    ({ rst := true, cmdValid := true, cmd := 0x0202 } : PortIn).presentsStep = false ∧
      ({ rst := false, cmdValid := true, cmd := 0x0202 } : PortIn).presentsStep = true := by decide

end Sys2Proof.Tests
end

/-! # Proofs: the scope of the model (00_scope.md) -/

/-! ## The codec, at every `SAMPLE_W` (30_encoding.md R79 to R86) -/

namespace Sys2Proof

variable {sampleW : Nat}

/-- A command without an operand is read exactly where the operand field is 0 (30_encoding.md R85 (c)). -/
theorem withoutOperand_eq_ok_iff {w : CmdWord sampleW} {i j : Instr sampleW} :
    withoutOperand w i = .ok j ↔ operandField w = 0 ∧ j = i := by
  unfold withoutOperand
  split <;> simp_all [eq_comm]

/-- The decoder reads every command back from its word. -/
@[simp] theorem decode_encode (i : Instr sampleW) : decode (encode i) = .ok i := by
  cases i <;> simp [encode, decode, withoutOperand, Instr.opcode, Instr.operand]

/-- A word that decodes has exactly the fields of the command it decodes to: no bit is ignored. -/
theorem fields_of_decode {w : CmdWord sampleW} {i : Instr sampleW} (h : decode w = .ok i) :
    operandField w = i.operand ∧ rsvField w = 0 ∧ opField w = i.opcode := by
  unfold decode at h
  split at h
  · exact nomatch h
  have hrsv : rsvField w = 0 := not_not.mp ‹_›
  split at h
  · cases h
    exact ⟨rfl, hrsv, ‹_›⟩
  iterate 3
    split at h
    · obtain ⟨hs, rfl⟩ := withoutOperand_eq_ok_iff.mp h
      exact ⟨hs, hrsv, ‹_›⟩
  exact nomatch h

/-- Every word that decodes is the word of what it decodes to. -/
theorem encode_of_decode {w : CmdWord sampleW} {i : Instr sampleW} (h : decode w = .ok i) : encode i = w := by
  obtain ⟨hs, hrsv, hop⟩ := fields_of_decode h
  rw [← commandWord_fields w, hs, hrsv, hop]
  rfl

/-- Settles O56: both directions hold because a word is its three fields, whatever the width of the operand. -/
theorem codecAtEveryWidth : Obligations.CodecAtEveryWidth :=
  fun _ => ⟨decode_encode, fun _ _ => encode_of_decode⟩

end Sys2Proof

/-! ## The reading of a sample (00_scope.md R12, 41_step.md R110) -/

namespace Sys2Proof.Machine

variable {sampleW : Nat}

/-- Exactly the samples up to 7 have an input index. -/
theorem sampleIndex_isSome_iff (v : Sample sampleW) : (sampleIndex v).isSome = true ↔ v.toNat ≤ 7 := by
  unfold sampleIndex
  split
  · exact iff_of_true rfl (by omega)
  · exact iff_of_false Bool.false_ne_true (by omega)

/-- Exactly the samples above 7 have no input index. -/
theorem sampleIndex_eq_none_iff {v : Sample sampleW} : sampleIndex v = none ↔ 7 < v.toNat := by
  rw [← Nat.not_le, ← sampleIndex_isSome_iff, Option.not_isSome_iff_eq_none]

/-- The input index of a sample is the sample's value. -/
theorem sampleIndex_eq_some_iff {v : Sample sampleW} {i : InputIndex} : sampleIndex v = some i ↔ v.toNat = i.val := by
  unfold sampleIndex
  split
  · simp [Fin.ext_iff]
  · simp
    omega

/-- A port of 3 bits or fewer carries no sample above 7 (92_eei_decisions.md D5). -/
theorem toNat_le_of_narrow (hw : sampleW ≤ 3) (v : Sample sampleW) : v.toNat ≤ 7 := by
  have := v.isLt
  have : 2 ^ sampleW ≤ 2 ^ 3 := Nat.pow_le_pow_right (by decide) hw
  omega

/-- The two readings of a sample: it stands as it is, or it is a sample above 7 read as a negative number. -/
theorem sampleInt_cases (v : Sample sampleW) :
    sampleInt v = v.toNat ∨ 7 < v.toNat ∧ sampleInt v = v.toNat - 2 ^ sampleW := by
  unfold sampleInt
  split
  · exact .inl rfl
  · rename_i h
    obtain ⟨hw, hv⟩ := not_or.mp h
    have : 2 ^ 3 ≤ 2 ^ (sampleW - 1) := Nat.pow_le_pow_right (by decide) (by omega)
    exact .inr ⟨by omega, rfl⟩

/-- A sample up to 7 stands for its value. -/
theorem sampleInt_of_le {v : Sample sampleW} (h : v.toNat ≤ 7) : sampleInt v = v.toNat :=
  (sampleInt_cases v).resolve_right fun hv => Nat.not_lt.mpr h hv.1

/-- Exactly the samples up to 7 stand for an integer that the contract accepts. -/
theorem sampleInt_mem_range_iff (v : Sample sampleW) : (0 ≤ sampleInt v ∧ sampleInt v ≤ 7) ↔ v.toNat ≤ 7 := by
  have hlt : (v.toNat : Int) < 2 ^ sampleW := by exact_mod_cast v.isLt
  rcases sampleInt_cases v with h | ⟨hv, h⟩ <;> omega

/-- The integer a sample stands for is carried by that sample. -/
@[simp] theorem sampleOfInt_sampleInt (v : Sample sampleW) : sampleOfInt (sampleInt v) sampleW = v := by
  have hmod : (v.toNat : Int) % 2 ^ sampleW = v.toNat :=
    Int.emod_eq_of_lt (by omega) (by exact_mod_cast v.isLt)
  apply BitVec.eq_of_toNat_eq
  rcases sampleInt_cases v with h | ⟨-, h⟩ <;> simp [sampleOfInt, h, BitVec.toNat_ofInt, hmod]

/-- Settles O55: the range check and the integer reading agree at 7, at every width. -/
theorem sampleRangeAtEveryWidth : Obligations.SampleRangeAtEveryWidth := fun _ v =>
  ⟨sampleIndex_isSome_iff v, sampleInt_mem_range_iff v, sampleOfInt_sampleInt v,
    fun hw => (sampleIndex_isSome_iff v).mpr (toNat_le_of_narrow hw v)⟩

/-- Settles O7: this hardware's reading by its two halves (sampleInt_eq), and the facts of O55 at 8 bits. -/
theorem sampleReadAsInteger : Obligations.SampleReadAsInteger := fun v =>
  ⟨fun h => by rw [sampleInt_eq, if_pos h], fun h => by rw [sampleInt_eq, if_neg (by omega)],
    sampleOfInt_sampleInt v, sampleInt_mem_range_iff v, sampleIndex_isSome_iff v, by decide⟩

end Sys2Proof.Machine

/-! ## What a command answers in a legal state -/

namespace Sys2Proof.Machine

variable {sampleW idW holdW : Nat}

/-- The word of a command is accepted as that command. -/
@[simp] theorem acceptWord_encode (i : Instr sampleW) (s : State sampleW idW holdW) :
    acceptWord (encode i) s = perform i s := by
  simp [acceptWord]

/-- A legal state has a row, so a response about it is always given. -/
theorem respond_cur_of_legal (st : Status) {s : State sampleW idW holdW} (h : s.Legal) :
    ∃ t, respond st s.cur s = .next t ∧ Answers s t st s.cur :=
  have ho := s.engine.outputs?_of_lt h.2
  ⟨_, respond_of_outputs st ho, _, ho, rfl⟩

/-- A move to an identifier of the table is always answered. -/
theorem respond_move (st : Status) (s : State sampleW idW holdW) (k : Fin s.engine.n) :
    ∃ t, respond st (stateCode k idW) (s.writeCur (stateCode k idW)) = .next t ∧ Answers s t st (stateCode k idW) :=
  ⟨_, respond_writeCur_stateCode st s k, _, s.engine.outputs?_stateCode k, rfl⟩

/-- STEP in range answers OK at the successor the table gives (41_step.md R110, R111). -/
theorem execStep_in_range {v : Sample sampleW} {i : InputIndex} {s : State sampleW idW holdW} (h : s.Legal)
    (hi : sampleIndex v = some i) :
    ∃ t, execStep v s = .next t ∧ Answers s t .ok (stateCode (s.row h).next[i.val] idW) := by
  have hn := nextStateDecoder_of_lt s.engine i h.2
  simpa only [execStep, whenReset_of_reset h.1, hi, hn] using respond_move .ok s (s.row h).next[i.val]

/-- STEP out of range answers OUT_OF_RANGE_INPUT and keeps `cur` (60_exceptions.md R136). -/
theorem execStep_out_of_range {v : Sample sampleW} {s : State sampleW idW holdW} (h : s.Legal) (hv : sampleIndex v = none) :
    ∃ t, execStep v s = .next t ∧ Answers s t .outOfRangeInput s.cur := by
  simpa only [execStep, whenReset_of_reset h.1, hv, raise] using respond_cur_of_legal .outOfRangeInput h

/-- Every command is answered in every legal state. -/
theorem perform_of_legal (i : Instr sampleW) {s : State sampleW idW holdW} (h : s.Legal) :
    ∃ t st x, perform i s = .next t ∧ Answers s t st x := by
  cases i with
  | nop =>
    obtain ⟨t, ht, ha⟩ := respond_cur_of_legal .ok h
    exact ⟨t, _, _, (whenReset_of_reset h.1 _).trans ht, ha⟩
  | init =>
    obtain ⟨t, ht, ha⟩ := respond_move .ok s s.engine.start
    exact ⟨t, _, _, (whenReset_of_reset h.1 _).trans ht, ha⟩
  | step v =>
    cases hv : sampleIndex v with
    | none =>
      obtain ⟨t, ht, ha⟩ := execStep_out_of_range h hv
      exact ⟨t, _, _, ht, ha⟩
    | some i =>
      obtain ⟨t, ht, ha⟩ := execStep_in_range h hv
      exact ⟨t, _, _, ht, ha⟩
  | outputs =>
    obtain ⟨t, ht, ha⟩ := respond_cur_of_legal .ok h
    exact ⟨t, _, _, (whenReset_of_reset h.1 _).trans ht, ha⟩

/-- Every word, legal or illegal, is answered in every legal state. -/
theorem acceptWord_of_legal (w : CmdWord sampleW) {s : State sampleW idW holdW} (h : s.Legal) :
    ∃ t st x, acceptWord w s = .next t ∧ Answers s t st x := by
  unfold acceptWord
  split
  · exact perform_of_legal _ h
  · obtain ⟨t, ht, ha⟩ := respond_cur_of_legal .illegalCommand h
    exact ⟨t, _, _, (whenReset_of_reset h.1 _).trans ht, ha⟩

/-- The two low bits of the response are the code of the status (30_encoding.md R87). -/
theorem Answers.rsp_status {s t : State sampleW idW holdW} {st : Status} {x : StateId idW} (h : Answers s t st x) :
    t.rsp.extractLsb' 0 2 = st.code := by
  obtain ⟨o, -, rfl⟩ := h
  exact responseWord_status st x o

end Sys2Proof.Machine

/-! ## STEP as a refinement of the contract's `Step` (00_scope.md R12) -/

namespace Sys2Proof.Machine

variable {sampleW idW holdW : Nat}

/-- The controller a host holds after one call of `Step`: the new one, or, where the call fails, the one it had
(60_exceptions.md R136). -/
def contractNext (e : Engine idW holdW) (c : Fin e.n) (i : Int) : Fin e.n :=
  match contractStep e c i with
  | .ok c' => c'
  | .error _ => c

/-- A run of calls goes on from the controller its first call leaves. -/
theorem contractRun_cons (e : Engine idW holdW) (c : Fin e.n) (i : Int) (is : List Int) :
    contractRun e c (i :: is) = contractRun e (contractNext e c i) is := by
  simp only [contractRun, contractNext]
  cases contractStep e c i <;> rfl

/-- A call on the integer of a sample in range gives the successor at the sample's index. -/
theorem contractNext_of_index (e : Engine idW holdW) (c : Fin e.n) {v : Sample sampleW} {i : InputIndex}
    (h : sampleIndex v = some i) : contractNext e c (sampleInt v) = e.rows[c.val].next[i.val] := by
  have hv : v.toNat = i.val := sampleIndex_eq_some_iff.mp h
  have hi : i.val ≤ 7 := Nat.le_of_lt_succ i.isLt
  simp [contractNext, contractStep, sampleInt_of_le (hv ▸ hi), hv, hi]

/-- A call on the integer of a sample out of range fails, so the host keeps its controller. -/
theorem contractNext_of_no_index (e : Engine idW holdW) (c : Fin e.n) {v : Sample sampleW} (h : sampleIndex v = none) :
    contractNext e c (sampleInt v) = c := by
  have hv : ¬(0 ≤ sampleInt v ∧ sampleInt v ≤ 7) := by
    rw [sampleInt_mem_range_iff]
    exact Nat.not_le.mpr (sampleIndex_eq_none_iff.mp h)
  simp [contractNext, contractStep, hv]

/-- The refinement relation: the machine has the table `e` and has been reset, and `cur` is the code of the controller `c`. -/
structure Represents (s : State sampleW idW holdW) (e : Engine idW holdW) (c : Fin e.n) : Prop where
  engine : s.engine = e
  wasReset : s.wasReset = true
  cur : s.cur = stateCode c idW

variable {s : State sampleW idW holdW} {e : Engine idW holdW} {c : Fin e.n}

theorem Represents.cur_toNat (h : Represents s e c) : s.cur.toNat = c.val := h.cur ▸ e.stateCode_toNat c

/-- A state that represents a controller is legal. -/
theorem Represents.legal (h : Represents s e c) : s.Legal :=
  ⟨h.wasReset, by rw [h.cur_toNat, h.engine]; exact c.isLt⟩

/-- The output ports are the contract's `CurrentOutputs` of the controller (30_encoding.md R76). -/
theorem Represents.outPorts (h : Represents s e c) (free : OutPorts idW holdW) :
    s.outPorts free = { contractOutputs e c with state := s.cur } := by
  simp [State.outPorts, h.wasReset, h.engine, h.cur, contractOutputs]

/-- An answer at the code of a controller represents that controller. -/
theorem Represents.of_answers {t : State sampleW idW holdW} {st : Status} {c' : Fin e.n} (h : Represents s e c)
    (ha : Answers s t st (stateCode c' idW)) : Represents t e c' := by
  obtain ⟨hengine, hreset, -, hcur, -, -⟩ := ha.frame
  exact ⟨hengine.trans h.engine, hreset.trans h.wasReset, hcur⟩

/-- The statuses that a STEP with sample `v` adds to the record. -/
def stepErrors (v : Sample sampleW) : List Status := if 7 < v.toNat then [.outOfRangeInput] else []

/-- One STEP command simulates one call of `Step`. -/
theorem Represents.step (h : Represents s e c) (v : Sample sampleW) :
    ∃ t, acceptWord (encode (.step v)) s = .next t ∧ Represents t e (contractNext e c (sampleInt v)) ∧
      t.errors = s.errors ++ stepErrors v := by
  rw [acceptWord_encode]
  cases hv : sampleIndex v with
  | none =>
    obtain ⟨t, ht, ha⟩ := execStep_out_of_range h.legal hv
    have hlt : 7 < v.toNat := sampleIndex_eq_none_iff.mp hv
    obtain ⟨-, -, -, -, -, herrors⟩ := ha.frame
    rw [h.cur] at ha
    rw [contractNext_of_no_index e c hv]
    exact ⟨t, ht, h.of_answers ha, by simp [herrors, recordStatus, stepErrors, hlt]⟩
  | some i =>
    obtain ⟨t, ht, ha⟩ := execStep_in_range h.legal hv
    have hle : ¬7 < v.toNat := by have := sampleIndex_eq_some_iff.mp hv; omega
    obtain ⟨-, -, -, -, -, herrors⟩ := ha.frame
    obtain rfl := h.engine
    simp only [State.row, h.cur_toNat] at ha
    rw [contractNext_of_index s.engine c hv]
    exact ⟨t, ht, h.of_answers ha, by simp [herrors, stepErrors, hle]⟩

/-- A run of STEP commands simulates the run of calls of `Step`. -/
theorem Represents.run : ∀ (vs : List (Sample sampleW)) {s : State sampleW idW holdW} {c : Fin e.n}, Represents s e c →
    ∃ t, acceptWords (vs.map fun v => encode (.step v)) s = .next t ∧
      Represents t e (contractRun e c (vs.map sampleInt)) ∧ t.errors = s.errors ++ vs.flatMap stepErrors
  | [], s, _, h => ⟨s, rfl, h, by simp⟩
  | v :: vs, _, _, h => by
    obtain ⟨u, hu, hrep, herr⟩ := h.step v
    obtain ⟨t, ht, hrep', herr'⟩ := Represents.run vs hrep
    refine ⟨t, ?_, ?_, ?_⟩
    · rw [List.map_cons, acceptWords_cons, hu, andThen_next, ht]
    · rwa [List.map_cons, contractRun_cons]
    · rw [herr', herr, List.flatMap_cons, List.append_assoc]

/-- The record of a run of STEP commands: one OutOfRangeInput per sample above 7. -/
theorem flatMap_stepErrors (vs : List (Sample sampleW)) :
    vs.flatMap stepErrors = (vs.filter fun v => decide (7 < v.toNat)).map fun _ => Status.outOfRangeInput := by
  induction vs with
  | nil => rfl
  | cons v vs ih =>
    rw [List.flatMap_cons, ih, stepErrors]
    by_cases hv : 7 < v.toNat <;> simp [hv]

/-- Settles O35, by the simulation of one STEP (Represents.step) and induction on the samples. -/
theorem stepCommandsRefineContract : Obligations.StepCommandsRefineContract := by
  intro vs s c hreset hcur
  obtain ⟨t, ht, hrep, herr⟩ := Represents.run vs (⟨rfl, hreset, hcur⟩ : Represents s s.engine c)
  exact ⟨t, ht, hrep.engine, hrep.cur, hrep.outPorts, flatMap_stepErrors vs ▸ herr⟩

end Sys2Proof.Machine

/-! ## The machine never halts and keeps its invariant, at every width (10_state.md R22, 70_reset_and_hazards.md R175) -/

namespace Sys2Proof.Machine

variable {sampleW idW holdW : Nat} {s t : State sampleW idW holdW}

/-- After an answer the response register agrees with the state the block is in, so the invariant holds. -/
theorem Answers.inv {st : Status} {x : StateId idW} (h : Answers s t st x) : t.Inv := by
  refine fun _ => ⟨h.cur_lt, fun _ => ?_⟩
  obtain ⟨o, ho, rfl⟩ := h
  cases st <;> simp [State.rspAgrees, ho]

/-- A reset edge establishes the invariant in every state (70_reset_and_hazards.md R160). -/
theorem State.resetEdge_inv (s : State sampleW idW holdW) : s.resetEdge.Inv := fun _ =>
  ⟨s.engine.stateCode_toNat s.engine.start ▸ s.engine.start.isLt, nofun⟩

/-- An idle edge keeps the invariant: it withdraws the response. -/
theorem State.Inv.idleEdge (h : s.Inv) : s.idleEdge.Inv := fun hr => ⟨(h hr).1, nofun⟩

/-- The invariant does not read the host's plan. -/
theorem State.Inv.advance (h : s.Inv) : s.advance.Inv := h

/-- After a reset the invariant makes the state legal. -/
theorem State.Inv.legal (h : s.Inv) (hr : s.wasReset = true) : s.Legal := ⟨hr, (h hr).1⟩

/-- Every edge keeps the invariant. -/
theorem clockEdge_keeps_inv {p : PortIn sampleW} (hs : s.Inv) (h : clockEdge p s = .next t) : t.Inv := by
  obtain ⟨-, rfl⟩ | ⟨-, -, hw⟩ | ⟨-, -, rfl⟩ := clockEdge_next h
  · exact s.resetEdge_inv
  · obtain ⟨-, _, _, ha⟩ := acceptWord_next hw
    exact ha.inv
  · exact hs.idleEdge

/-- No edge writes the table or withdraws the first reset (10_state.md R29, 70_reset_and_hazards.md R162). -/
theorem clockEdge_frame {p : PortIn sampleW} (h : clockEdge p s = .next t) :
    t.engine = s.engine ∧ (s.wasReset = true → t.wasReset = true) := by
  obtain ⟨-, rfl⟩ | ⟨-, -, hw⟩ | ⟨-, -, rfl⟩ := clockEdge_next h
  · exact ⟨rfl, fun _ => rfl⟩
  · obtain ⟨-, _, _, ha⟩ := acceptWord_next hw
    obtain ⟨hengine, hreset, -⟩ := ha.frame
    exact ⟨hengine, hreset.trans⟩
  · exact ⟨rfl, id⟩

/-- Every edge is answered in every legal state, whatever the host presents. -/
theorem clockEdge_of_legal (p : PortIn sampleW) (h : s.Legal) : ∃ t, clockEdge p s = .next t := by
  unfold clockEdge
  split
  · exact ⟨_, rfl⟩
  · split
    · obtain ⟨t, _, _, ht, -⟩ := acceptWord_of_legal p.cmd h
      exact ⟨t, ht⟩
    · exact ⟨_, rfl⟩

/-- The invariant after a reset, with the table fixed: what a run of edges keeps. -/
def State.Running (e : Engine idW holdW) (s : State sampleW idW holdW) : Prop :=
  s.wasReset = true ∧ s.Inv ∧ s.engine = e

/-- One edge of a running machine goes on and leaves it running. -/
theorem stepAt_of_running {e : Engine idW holdW} (h : s.Running e) : ∃ t, stepAt s = .next t ∧ t.Running e := by
  obtain ⟨hr, hinv, he⟩ := h
  obtain ⟨t, ht⟩ := clockEdge_of_legal (s := s.advance) s.presented (hinv.legal hr)
  obtain ⟨hengine, hreset⟩ := clockEdge_frame ht
  exact ⟨t, ht, hreset hr, clockEdge_keeps_inv hinv.advance ht, hengine.trans he⟩

/-- A run of edges of a running machine goes on and leaves it running. -/
theorem runEdges_of_running {e : Engine idW holdW} :
    ∀ (k : Nat) {s : State sampleW idW holdW}, s.Running e → ∃ t, runEdges k s = .next t ∧ t.Running e
  | 0, s, h => ⟨s, rfl, h⟩
  | k + 1, s, h => by
    obtain ⟨u, hu, hrun⟩ := stepAt_of_running h
    rw [runEdges_succ, hu, andThen_next]
    exact runEdges_of_running k hrun

/-- Settles O57, by induction on the number of edges. -/
theorem runsAtEveryWidth : Obligations.RunsAtEveryWidth := by
  intro sampleW idW holdW k s hr hinv
  obtain ⟨t, ht, -, htinv, hengine⟩ := runEdges_of_running k (⟨hr, hinv, rfl⟩ : s.Running s.engine)
  exact ⟨t, ht, htinv, hengine⟩

end Sys2Proof.Machine

/-! ## OUT_OF_RANGE_INPUT needs a port of 4 bits (92_eei_decisions.md D5) -/

namespace Sys2Proof.Machine

variable {sampleW idW holdW : Nat} {s t : State sampleW idW holdW}

/-- The status code of OUT_OF_RANGE_INPUT belongs to no other status (30_encoding.md R88). -/
theorem Status.code_eq_outOfRange_iff (st : Status) : st.code = 0b01#2 ↔ st = .outOfRangeInput := by
  cases st <;> decide

/-- The status of a command's answer: OUT_OF_RANGE_INPUT for a STEP whose sample has no index, and otherwise OK. -/
theorem perform_next_status {i : Instr sampleW} (h : perform i s = .next t) :
    (∃ x, Answers s t .ok x) ∨ ∃ v, i = .step v ∧ sampleIndex v = none ∧ Answers s t .outOfRangeInput s.cur := by
  cases i with
  | nop => exact .inl ⟨_, respond_writeCur_next (x := s.cur) (whenReset_next h).2⟩
  | init => exact .inl ⟨_, respond_writeCur_next (whenReset_next h).2⟩
  | step v =>
    obtain ⟨-, ⟨_, _, -, -, ha⟩ | ⟨hv, ha⟩⟩ := execStep_next h
    · exact .inl ⟨_, ha⟩
    · exact .inr ⟨v, rfl, hv, ha⟩
  | outputs => exact .inl ⟨_, respond_writeCur_next (x := s.cur) (whenReset_next h).2⟩

/-- A word is answered OUT_OF_RANGE_INPUT only where it is a STEP with a sample above 7 (60_exceptions.md R136). -/
theorem sample_of_outOfRange {w : CmdWord sampleW} (h : acceptWord w s = .next t)
    (hst : t.rsp.extractLsb' 0 2 = 0b01#2) : ∃ v, decode w = .ok (.step v) ∧ 7 < v.toNat := by
  unfold acceptWord at h
  split at h
  · rename_i i hw
    obtain ⟨_, ha⟩ | ⟨v, rfl, hv, -⟩ := perform_next_status h
    · exact nomatch (Status.code_eq_outOfRange_iff .ok).mp (ha.rsp_status ▸ hst)
    · exact ⟨v, hw, sampleIndex_eq_none_iff.mp hv⟩
  · obtain ⟨-, ha⟩ := illegalCommand_next h
    exact nomatch (Status.code_eq_outOfRange_iff .illegalCommand).mp (ha.rsp_status ▸ hst)

/-- At 4 bits and more, 8 is a sample, and it is out of range. -/
theorem sampleIndex_eight (hw : 4 ≤ sampleW) : sampleIndex (BitVec.ofNat sampleW 8) = none := by
  have : 2 ^ 4 ≤ 2 ^ sampleW := Nat.pow_le_pow_right (by decide) hw
  rw [sampleIndex_eq_none_iff, BitVec.toNat_ofNat, Nat.mod_eq_of_lt (by omega)]
  decide

/-- Settles O58: a port of 3 bits carries no sample above 7, and one of 4 bits carries 8. -/
theorem outOfRangeNeedsFourBits : Obligations.OutOfRangeNeedsFourBits := by
  refine fun sampleW idW holdW s => ⟨fun hw t ht hvalid hst => ?_, fun hw hs => ?_⟩
  · obtain ⟨-, rfl⟩ | ⟨-, -, ha⟩ | ⟨-, -, rfl⟩ := clockEdge_next ht
    · exact nomatch hvalid
    · obtain ⟨v, -, hv⟩ := sample_of_outOfRange ha hst
      exact Nat.not_lt.mpr (toNat_le_of_narrow hw v) hv
    · exact nomatch hvalid
  · obtain ⟨t, ht, ha⟩ := execStep_out_of_range hs (sampleIndex_eight hw)
    obtain ⟨-, -, -, hcur, -⟩ := ha.frame
    exact ⟨t, ht, hcur, ha.rsp_status⟩

end Sys2Proof.Machine

/-! ## BUILD and SERIALIZE, at every `ID_W` and `HOLD_W` (43_construction.md R120, R128, R129) -/

namespace Sys2Proof.Machine

variable {idW holdW n : Nat}

/-- The bytes at offset `b` of an image are the row `r`: every field has the value the bytes there give it
(30_encoding.md R93). Each equation bounds its bytes by the width of the field. -/
structure RowAt (img : List Byte) (b : Nat) (r : Row n holdW) : Prop where
  primary : (byteAt img b).toNat = r.primary.toNat
  ped : (byteAt img (b + 1)).toNat = r.ped.toNat
  hold : (holdField img b).toNat = r.hold.toNat
  next : ∀ i : Fin 8, (byteAt img (b + 6 + i.val)).toNat = r.next[i.val].val

/-- The bytes of an image are the engine `e` (30_encoding.md R91 to R94). -/
structure ImageOf (img : List Byte) (e : Engine idW holdW) : Prop where
  length : img.length = imageLength e.n
  count : (byteAt img 0).toNat = e.n
  start : (byteAt img 1).toNat = e.start.val
  rows : ∀ s : Fin e.n, RowAt img (rowOffset s.val) e.rows[s.val]

/-- A word with the value of another, resized to the other's width, is the other. -/
theorem setWidth_eq_of_toNat_eq {a k : Nat} {x : BitVec a} {y : BitVec k} (h : x.toNat = y.toNat) : x.setWidth k = y :=
  BitVec.eq_of_toNat_eq (by rw [BitVec.toNat_setWidth, h, Nat.mod_eq_of_lt y.isLt])

/-- A resized word that fits its new width keeps its value. -/
theorem toNat_setWidth_of_lt {a k : Nat} (x : BitVec a) (h : x.toNat < 2 ^ k) : (x.setWidth k).toNat = x.toNat := by
  rw [BitVec.toNat_setWidth, Nat.mod_eq_of_lt h]

/-- A successor byte is read exactly where it is the code of an identifier below `n`. -/
theorem readNext_eq_ok_iff {img : List Byte} {b : Nat} {i : Fin 8} {k : Fin n} :
    readNext n img b i = .ok k ↔ (byteAt img (b + 6 + i.val)).toNat = k.val := by
  unfold readNext
  split
  · simp [Fin.ext_iff]
  · have := k.isLt
    exact ⟨nofun, by omega⟩

/-- The bits that must be 0 are 0 exactly where each field can hold its bytes. -/
theorem not_reservedSet_iff {img : List Byte} {b : Nat} :
    ¬reservedSet holdW img b = true ↔
      (byteAt img b).toNat < 2 ^ 6 ∧ (byteAt img (b + 1)).toNat < 2 ^ 2 ∧ (holdField img b).toNat < 2 ^ holdW := by
  rw [reservedSet_iff]
  omega

/-- A row is read from exactly the bytes that are that row. -/
theorem readRow_eq_ok_iff {img : List Byte} {s : Fin n} {r : Row n holdW} :
    readRow holdW n img s = .ok r ↔ RowAt img (rowOffset s.val) r := by
  unfold readRow
  rw [← BitVec.setWidth_eq_extractLsb' (by decide), ← BitVec.setWidth_eq_extractLsb' (by decide)]
  constructor
  · intro h
    split at h
    · exact nomatch h
    obtain ⟨hprimary, hped, hhold⟩ := not_reservedSet_iff.mp ‹_›
    split at h
    · exact nomatch h
    rename_i next hnext
    cases h
    exact ⟨(toNat_setWidth_of_lt _ hprimary).symm, (toNat_setWidth_of_lt _ hped).symm,
      (toNat_setWidth_of_lt _ hhold).symm, fun i => readNext_eq_ok_iff.mp (collect_ok_iff.mp hnext i)⟩
  · intro h
    have hclear : ¬reservedSet holdW img (rowOffset s.val) = true :=
      not_reservedSet_iff.mpr ⟨h.primary ▸ r.primary.isLt, h.ped ▸ r.ped.isLt, h.hold ▸ r.hold.isLt⟩
    have hnext : collect 8 (readNext n img (rowOffset s.val)) = .ok r.next :=
      collect_ok_iff.mpr fun i => readNext_eq_ok_iff.mpr (h.next i)
    rw [if_neg hclear, hnext, setWidth_eq_of_toNat_eq h.primary, setWidth_eq_of_toNat_eq h.ped,
      setWidth_eq_of_toNat_eq h.hold]

/-- BUILD gives an engine from exactly the images that are that engine (43_construction.md R120). -/
theorem build_eq_ok_iff {img : List Byte} {e : Engine idW holdW} : build img idW holdW = .ok e ↔ ImageOf img e := by
  unfold build buildWith
  constructor
  · intro h
    split at h
    · exact nomatch h
    split at h
    case isFalse => exact nomatch h
    split at h
    case isFalse => exact nomatch h
    split at h
    case isFalse => exact nomatch h
    split at h
    · exact nomatch h
    rename_i hrows
    cases h
    exact ⟨‹_›, rfl, rfl, fun s => readRow_eq_ok_iff.mp (collect_ok_iff.mp hrows s)⟩
  · intro h
    obtain ⟨n, hpos, hmax, start, rows⟩ := e
    have hlen : img.length = imageLength n := h.length
    have hn : (byteAt img 0).toNat = n := h.count
    have hst : (byteAt img 1).toNat = start.val := h.start
    have hrows : collect n (readRow holdW n img) = .ok rows :=
      collect_ok_iff.mpr fun s => readRow_eq_ok_iff.mpr (h.rows s)
    have hlong : ¬img.length < 2 := by rw [hlen, imageLength]; omega
    rw [if_neg hlong, hn, hst, dif_pos ⟨hpos, hmax⟩, if_pos hlen, dif_pos start.isLt, hrows]

/-! ### The bytes of a serialized engine -/

/-- Images of one length with the same bytes are the same image. -/
theorem image_ext {a b : List Byte} (hlen : a.length = b.length) (h : ∀ k < b.length, byteAt a k = byteAt b k) : a = b := by
  refine List.ext_getElem hlen fun k ha hb => ?_
  simpa [byteAt, List.getD_eq_getElem?_getD, ha, hb] using h k hb

/-- A serialized engine has the length of an image of its rows (30_encoding.md R94). -/
@[simp] theorem serialize_length (e : Engine idW holdW) : (serialize e).length = imageLength e.n := by
  rw [serialize, List.length_append, rows_bytes_length]
  rfl

/-- Byte `j` of row `s` of a serialized engine is byte `j` of that row's bytes (43_construction.md R128). -/
theorem byteAt_serialize_row (e : Engine idW holdW) (s : Fin e.n) {j : Nat} (hj : j < 14) :
    byteAt (serialize e) (rowOffset s.val + j) = byteAt (rowBytes e.rows[s.val]) j := by
  have hrow := flatMap_getElem? rowBytes 14 e.rows.toList s.val j (fun r _ => rowBytes_length r) (by simp) hj
  rw [Vector.getElem_toList] at hrow
  rw [byteAt, byteAt, List.getD_eq_getElem?_getD, List.getD_eq_getElem?_getD, serialize, rowOffset,
    List.getElem?_append_right (by simp; omega), ← hrow]
  simp [show 2 + 14 * s.val + j - 2 = 14 * s.val + j by omega]

/-- A byte of an image past its header is a byte of one of its rows. -/
theorem offset_cases {k : Nat} (h : k < imageLength n) :
    k = 0 ∨ k = 1 ∨ ∃ (s : Fin n) (j : Nat), j < 14 ∧ k = rowOffset s.val + j := by
  simp only [imageLength] at h
  rcases Nat.lt_or_ge k 2 with hk | hk
  · omega
  · exact .inr (.inr ⟨⟨(k - 2) / 14, by omega⟩, (k - 2) % 14, Nat.mod_lt _ (by decide), by simp only [rowOffset]; omega⟩)

/-- The successor bytes of a row follow its masks and its hold. -/
theorem byteAt_rowBytes_next (r : Row n holdW) (i : Fin 8) :
    byteAt (rowBytes r) (6 + i.val) = BitVec.ofNat 8 r.next[i.val].val := by
  have hsplit : rowBytes r = ([r.primary.setWidth 8, r.ped.setWidth 8] ++ holdBytes (r.hold.setWidth 32)) ++
    r.next.toList.map (fun k => BitVec.ofNat 8 k.val) := rfl
  rw [hsplit, byteAt, List.getD_eq_getElem?_getD, List.getElem?_append_right (by simp)]
  simp

/-- The hold bytes of a row give back its hold where 32 bits can hold it. -/
theorem holdField_rowBytes (r : Row n holdW) : holdField (rowBytes r) 0 = r.hold.setWidth 32 :=
  le32_bytes (r.hold.setWidth 32)

/-- The four bytes of a hold are the bytes its field was read from (20_memory.md R53). -/
theorem holdBytes_le32 (b0 b1 b2 b3 : Byte) : holdBytes (le32 b0 b1 b2 b3) = [b0, b1, b2, b3] := by
  have hbyte : ∀ (k : Nat) (b : Byte), (le32 b0 b1 b2 b3).toNat / 2 ^ k % 2 ^ 8 = b.toNat →
      (le32 b0 b1 b2 b3).extractLsb' k 8 = b := fun k b h =>
    BitVec.eq_of_toNat_eq (by rw [BitVec.extractLsb'_toNat, Nat.shiftRight_eq_div_pow, h])
  have hvalue := le32_toNat b0 b1 b2 b3
  have := b0.isLt
  have := b1.isLt
  have := b2.isLt
  rw [holdBytes, hbyte 0 b0 (by omega), hbyte 8 b1 (by omega), hbyte 16 b2 (by omega), hbyte 24 b3 (by omega)]

/-- A byte with a known value is the byte of that value. -/
theorem ofNat_eq_of_toNat_eq {x : Byte} {k : Nat} (h : x.toNat = k) : BitVec.ofNat 8 k = x := by
  rw [← h, BitVec.ofNat_toNat, BitVec.setWidth_eq]

/-- Bytes that are a row are the bytes SERIALIZE writes for it. -/
theorem RowAt.byteAt_eq {img : List Byte} {b : Nat} {r : Row n holdW} (h : RowAt img b r) :
    ∀ j < 14, byteAt img (b + j) = byteAt (rowBytes r) j := by
  have hprimary : byteAt img b = r.primary.setWidth 8 := (setWidth_eq_of_toNat_eq h.primary.symm).symm
  have hped : byteAt img (b + 1) = r.ped.setWidth 8 := (setWidth_eq_of_toNat_eq h.ped.symm).symm
  have hfield : holdField img b = r.hold.setWidth 32 := (setWidth_eq_of_toNat_eq h.hold.symm).symm
  have hhold := holdBytes_le32 (byteAt img (b + 2)) (byteAt img (b + 3)) (byteAt img (b + 4)) (byteAt img (b + 5))
  rw [show le32 _ _ _ _ = r.hold.setWidth 32 from hfield] at hhold
  simp only [holdBytes, List.cons.injEq] at hhold
  obtain ⟨h2, h3, h4, h5, -⟩ := hhold
  intro j hj
  match j, hj with
  | 0, _ => exact hprimary
  | 1, _ => exact hped
  | 2, _ => exact h2.symm
  | 3, _ => exact h3.symm
  | 4, _ => exact h4.symm
  | 5, _ => exact h5.symm
  | j + 6, hj =>
    rw [show b + (j + 6) = b + 6 + j by omega, Nat.add_comm j 6]
    rw [byteAt_rowBytes_next r ⟨j, by omega⟩]
    exact (ofNat_eq_of_toNat_eq (h.next ⟨j, by omega⟩)).symm

/-- The bytes SERIALIZE writes for a row are that row, where a byte can hold its successors and four bytes its hold. -/
theorem RowAt.of_byteAt_eq {img : List Byte} {b : Nat} {r : Row n holdW} (hn : n ≤ 256) (hw : holdW ≤ 32)
    (h : ∀ j < 14, byteAt img (b + j) = byteAt (rowBytes r) j) : RowAt img b r where
  primary := by
    rw [show byteAt img b = r.primary.setWidth 8 from h 0 (by decide)]
    exact BitVec.toNat_setWidth_of_le (by decide)
  ped := by
    rw [show byteAt img (b + 1) = r.ped.setWidth 8 from h 1 (by decide)]
    exact BitVec.toNat_setWidth_of_le (by decide)
  hold := by
    have hfield : holdField img b = holdField (rowBytes r) 0 := by
      simp only [holdField, h 2 (by decide), h 3 (by decide), h 4 (by decide), h 5 (by decide), Nat.zero_add]
    rw [hfield, holdField_rowBytes]
    exact BitVec.toNat_setWidth_of_le hw
  next i := by
    have hi := r.next[i.val].isLt
    rw [Nat.add_assoc, h (6 + i.val) (by omega), byteAt_rowBytes_next, BitVec.toNat_ofNat, Nat.mod_eq_of_lt (by omega)]

/-- An image that is an engine is what the engine serializes to. -/
theorem ImageOf.serialize_eq {img : List Byte} {e : Engine idW holdW} (h : ImageOf img e) : serialize e = img := by
  refine image_ext ((serialize_length e).trans h.length.symm) fun k hk => ?_
  obtain rfl | rfl | ⟨s, j, hj, rfl⟩ := offset_cases (h.length ▸ hk)
  · exact ofNat_eq_of_toNat_eq h.count
  · exact ofNat_eq_of_toNat_eq h.start
  · rw [byteAt_serialize_row e s hj, (h.rows s).byteAt_eq j hj]

/-- A serialized engine is an image of it, where a byte can hold its count and four bytes its holds. -/
theorem imageOf_serialize (e : Engine idW holdW) (hn : e.n < 256) (hw : holdW ≤ 32) : ImageOf (serialize e) e where
  length := serialize_length e
  count := Nat.mod_eq_of_lt hn
  start := Nat.mod_eq_of_lt (e.start.isLt.trans hn)
  rows s := RowAt.of_byteAt_eq hn.le hw fun _ hj => byteAt_serialize_row e s hj

/-- Settles O59: BUILD accepts exactly the images of an engine (build_eq_ok_iff), and these are its serialization. -/
theorem roundTripAtEveryWidth : Obligations.RoundTripAtEveryWidth := by
  refine fun idW holdW => ⟨fun hid hw e => ?_, fun img e h => (build_eq_ok_iff.mp h).serialize_eq⟩
  have : 2 ^ idW ≤ 2 ^ 7 := Nat.pow_le_pow_right (by decide) hid
  exact build_eq_ok_iff.mpr (imageOf_serialize e (by have := e.nMax; omega) hw)

end Sys2Proof.Machine

/-! ## BUILD at a narrower `HOLD_W` (92_eei_decisions.md D9) -/

namespace Sys2Proof.Machine

variable {idW holdW n : Nat} {img : List Byte}

/-- A row with its hold in a field of another width. -/
def Row.resizeHold (r : Row n holdW) (k : Nat) : Row n k :=
  { primary := r.primary, ped := r.ped, hold := r.hold.setWidth k, next := r.next }

/-- An engine with its holds in a field of another width. -/
def Engine.resizeHold (e : Engine idW holdW) (k : Nat) : Engine idW k :=
  { n := e.n, nPos := e.nPos, nMax := e.nMax, start := e.start, rows := e.rows.map (Row.resizeHold · k) }

@[simp] theorem Engine.resizeHold_rows (e : Engine idW holdW) (k : Nat) (s : Fin e.n) :
    (e.resizeHold k).rows[s.val]'s.isLt = e.rows[s.val].resizeHold k := by
  simp [Engine.resizeHold]

/-- An image of an engine is also one of the engine with resized holds, where they fit. -/
theorem ImageOf.resizeHold {e : Engine idW holdW} (h : ImageOf img e) {k : Nat}
    (hk : ∀ s : Fin e.n, e.rows[s.val].hold.toNat < 2 ^ k) : ImageOf img (e.resizeHold k) where
  length := h.length
  count := h.count
  start := h.start
  rows (s : Fin e.n) := by
    obtain ⟨hprimary, hped, hhold, hnext⟩ := h.rows s
    have hrow : RowAt img (rowOffset s.val) (e.rows[s.val].resizeHold k) :=
      ⟨hprimary, hped, hhold.trans (toNat_setWidth_of_lt _ (hk s)).symm, hnext⟩
    exact e.resizeHold_rows k s ▸ hrow

/-- Two rows that the same bytes are agree in every field, whatever their widths. -/
theorem RowAt.agree {b n' holdW' : Nat} {r : Row n holdW} {r' : Row n' holdW'} (h : RowAt img b r) (h' : RowAt img b r') :
    r.primary = r'.primary ∧ r.ped = r'.ped ∧ r.hold.toNat = r'.hold.toNat ∧
      ∀ i : Fin 8, r.next[i.val].val = r'.next[i.val].val :=
  ⟨BitVec.eq_of_toNat_eq (h.primary.symm.trans h'.primary), BitVec.eq_of_toNat_eq (h.ped.symm.trans h'.ped),
    h.hold.symm.trans h'.hold, fun i => (h.next i).symm.trans (h'.next i)⟩

/-- Two engines of one image have the same number of rows. -/
theorem ImageOf.n_eq {idW' holdW' : Nat} {e : Engine idW holdW} {e' : Engine idW' holdW'} (h : ImageOf img e)
    (h' : ImageOf img e') : e.n = e'.n :=
  h.count.symm.trans h'.count

/-- Settles O60: an image read at one width is read at the other with resized holds, and both readings agree on the bytes. -/
theorem narrowHoldRefusesLongHolds : Obligations.NarrowHoldRefusesLongHolds := by
  intro holdW img hw
  simp only [build_eq_ok_iff]
  refine ⟨⟨?_, ?_⟩, fun e e' h h' => ⟨h.n_eq h', fun s => (h.rows s).agree (h'.rows ⟨s.val, h.n_eq h' ▸ s.isLt⟩)⟩⟩
  · rintro ⟨e, h⟩
    have hpow : 2 ^ holdW ≤ 2 ^ Config.holdW := Nat.pow_le_pow_right (by decide) hw
    have h' := h.resizeHold fun s => e.rows[s.val].hold.isLt.trans_le hpow
    refine ⟨_, h', fun s => ?_⟩
    obtain ⟨-, -, hhold, -⟩ := (h'.rows s).agree (h.rows s)
    exact hhold ▸ e.rows[s.val].hold.isLt
  · rintro ⟨e, h, hfit⟩
    exact ⟨_, h.resizeHold hfit⟩

end Sys2Proof.Machine

/-! # Proofs: the state (10_state.md) -/

/-! ## The invariant, and what can write `cur` (10_state.md R21, R22, R29) -/

namespace Sys2Proof.Machine

variable {sampleW idW holdW : Nat} {s t : State sampleW idW holdW}

/-- Settles O29: the plan's head is taken off, which the invariant does not read, and the edge keeps it. -/
theorem everyEdgeKeepsInv : Obligations.EveryEdgeKeepsInv :=
  fun _ _ hs h => clockEdge_keeps_inv hs.advance h

/-- Where `cur` moved, the answer was not given in place. -/
theorem not_answers_in_place {st : Status} (hcur : t.cur ≠ s.cur) : ¬Answers s t st s.cur := by
  rintro ⟨_, -, rfl⟩
  exact hcur rfl

/-- A command that moves `cur` is INIT or a STEP in range (10_state.md R21). -/
theorem perform_writes_cur {i : Instr sampleW} (h : perform i s = .next t) (hcur : t.cur ≠ s.cur) :
    i = .init ∨ ∃ v, i = .step v ∧ v.toNat ≤ 7 := by
  cases i with
  | nop => exact absurd (respond_writeCur_next (x := s.cur) (whenReset_next h).2) (not_answers_in_place hcur)
  | init => exact .inl rfl
  | step v =>
    obtain ⟨-, ⟨i, -, hi, -, -⟩ | ⟨-, ha⟩⟩ := execStep_next h
    · exact .inr ⟨v, rfl, (sampleIndex_isSome_iff v).mp (hi ▸ rfl)⟩
    · exact absurd ha (not_answers_in_place hcur)
  | outputs => exact absurd (respond_writeCur_next (x := s.cur) (whenReset_next h).2) (not_answers_in_place hcur)

/-- A word that moves `cur` is INIT's or that of a STEP in range; an illegal word never does (60_exceptions.md R138). -/
theorem acceptWord_writes_cur {w : CmdWord sampleW} (h : acceptWord w s = .next t) (hcur : t.cur ≠ s.cur) :
    decode w = .ok .init ∨ ∃ v, decode w = .ok (.step v) ∧ v.toNat ≤ 7 := by
  unfold acceptWord at h
  split at h
  · rename_i i hw
    obtain rfl | ⟨v, rfl, hv⟩ := perform_writes_cur h hcur
    · exact .inl hw
    · exact .inr ⟨v, hw, hv⟩
  · obtain ⟨-, ha⟩ := illegalCommand_next h
    exact absurd ha (not_answers_in_place hcur)

/-- An edge that moves `cur` is a reset edge or accepts INIT or a STEP in range. -/
theorem clockEdge_writes_cur {p : PortIn sampleW} (h : clockEdge p s = .next t) (hcur : t.cur ≠ s.cur) :
    p.rst = true ∨ (p.rst = false ∧ p.cmdValid = true) ∧
      (decode p.cmd = .ok .init ∨ ∃ v, decode p.cmd = .ok (.step v) ∧ v.toNat ≤ 7) := by
  obtain ⟨hrst, -⟩ | ⟨hrst, hvalid, hw⟩ | ⟨-, -, rfl⟩ := clockEdge_next h
  · exact .inl hrst
  · exact .inr ⟨⟨hrst, hvalid⟩, acceptWord_writes_cur hw hcur⟩
  · exact absurd rfl hcur

/-- An edge leaves `cur` at a state of the table where it was at one, before the first reset too (10_state.md R22). -/
theorem clockEdge_keeps_cur_lt {p : PortIn sampleW} (h : clockEdge p s = .next t) (hs : s.cur.toNat < s.engine.n) :
    t.cur.toNat < t.engine.n := by
  obtain ⟨-, rfl⟩ | ⟨-, -, hw⟩ | ⟨-, -, rfl⟩ := clockEdge_next h
  · exact (s.resetEdge_inv.legal rfl).2
  · obtain ⟨-, _, _, ha⟩ := acceptWord_next hw
    exact ha.cur_lt
  · exact hs

/-- Settles O25: the writers of `cur`, and the bound they keep, at the edge that takes the plan's head. -/
theorem curWrittenOnlyByResetInitStep : Obligations.CurWrittenOnlyByResetInitStep :=
  fun s _ h => ⟨clockEdge_writes_cur (s := s.advance) h, clockEdge_keeps_cur_lt (s := s.advance) h⟩

end Sys2Proof.Machine

/-! ## The response register is never read (10_state.md R43) -/

namespace Sys2Proof.Machine

variable {sampleW idW holdW : Nat}

/-- `s` with another response register and another record of the model's own. -/
def State.withRegister (rsp : RspWord idW holdW) (valid : Bool) (errors : List Status) (s : State sampleW idW holdW) :
    State sampleW idW holdW :=
  { s with rsp := rsp, rspValid := valid, errors := errors }

@[simp] theorem State.withRegister_engine (rsp : RspWord idW holdW) (valid : Bool) (errors : List Status)
    (s : State sampleW idW holdW) : (s.withRegister rsp valid errors).engine = s.engine := rfl
@[simp] theorem State.withRegister_cur (rsp : RspWord idW holdW) (valid : Bool) (errors : List Status)
    (s : State sampleW idW holdW) : (s.withRegister rsp valid errors).cur = s.cur := rfl

/-- Two states alike to the host and to every later command: only the record, and a response that is not valid, may differ. -/
structure Indistinguishable (t t' : State sampleW idW holdW) : Prop where
  cur : t'.cur = t.cur
  engine : t'.engine = t.engine
  wasReset : t'.wasReset = t.wasReset
  inputs : t'.inputs = t.inputs
  rspValid : t'.rspValid = t.rspValid
  rsp : t.rspValid = true → t'.rsp = t.rsp

/-- Outcomes alike: next states that are, or the same stop. -/
inductive OutcomesAlike : Result sampleW idW holdW → Result sampleW idW holdW → Prop where
  | next {t t'} : Indistinguishable t t' → OutcomesAlike (.next t) (.next t')
  | fault (f) : OutcomesAlike (.fault f) (.fault f)

theorem OutcomesAlike.of_next {r r' : Result sampleW idW holdW} {t : State sampleW idW holdW} (h : OutcomesAlike r r')
    (ht : r = .next t) : ∃ t', r' = .next t' ∧ Indistinguishable t t' := by
  cases h with
  | next h =>
    cases ht
    exact ⟨_, rfl, h⟩
  | fault => exact nomatch ht

theorem OutcomesAlike.of_fault {r r' : Result sampleW idW holdW} {f : Fault idW} (h : OutcomesAlike r r')
    (hf : r = .fault f) : r' = .fault f := by
  cases h with
  | next => exact nomatch hf
  | fault => exact hf

section
variable (rsp : RspWord idW holdW) (valid : Bool) (errors : List Status)

/-- A response is built from the table and not from the register it is loaded into. -/
theorem respond_withRegister (st : Status) (x : StateId idW) (s : State sampleW idW holdW) :
    OutcomesAlike (respond st x s) (respond st x (s.withRegister rsp valid errors)) := by
  cases ho : s.engine.outputs? x with
  | some o =>
    rw [respond_of_outputs st ho, respond_of_outputs (s := s.withRegister rsp valid errors) st ho]
    exact .next ⟨rfl, rfl, rfl, rfl, rfl, fun _ => rfl⟩
  | none =>
    rw [respond_of_no_outputs st ho, respond_of_no_outputs (s := s.withRegister rsp valid errors) st ho]
    exact .fault _

/-- The guard of a command does not read the register. -/
theorem whenReset_withRegister (s : State sampleW idW holdW) {r r' : Result sampleW idW holdW} (h : OutcomesAlike r r') :
    OutcomesAlike (whenReset s r) (whenReset (s.withRegister rsp valid errors) r') := by
  cases hr : s.wasReset with
  | true => rwa [whenReset_of_reset hr, whenReset_of_reset (s := s.withRegister rsp valid errors) hr]
  | false =>
    rw [whenReset_of_not_reset hr, whenReset_of_not_reset (s := s.withRegister rsp valid errors) hr]
    exact .fault _

/-- No command reads the register. -/
theorem perform_withRegister (i : Instr sampleW) (s : State sampleW idW holdW) :
    OutcomesAlike (perform i s) (perform i (s.withRegister rsp valid errors)) := by
  have answer := respond_withRegister (sampleW := sampleW) rsp valid errors
  cases i with
  | nop => exact whenReset_withRegister rsp valid errors s (answer .ok s.cur s)
  | init => exact whenReset_withRegister rsp valid errors s (answer .ok s.engine.startId (s.writeCur s.engine.startId))
  | step v =>
    refine whenReset_withRegister rsp valid errors s ?_
    cases sampleIndex v with
    | none => exact answer .outOfRangeInput s.cur s
    | some i =>
      simp only [State.withRegister_engine, State.withRegister_cur]
      cases nextStateDecoder s.engine s.cur i with
      | some x => exact answer .ok x (s.writeCur x)
      | none => exact .fault _
  | outputs => exact whenReset_withRegister rsp valid errors s (answer .ok s.cur s)

/-- No accepted word, legal or illegal, reads the register. -/
theorem acceptWord_withRegister (w : CmdWord sampleW) (s : State sampleW idW holdW) :
    OutcomesAlike (acceptWord w s) (acceptWord w (s.withRegister rsp valid errors)) := by
  unfold acceptWord
  split
  · exact perform_withRegister rsp valid errors _ s
  · exact whenReset_withRegister rsp valid errors s (respond_withRegister rsp valid errors .illegalCommand s.cur s)

/-- No edge reads the register; an edge without a command makes the response not valid, whatever it was. -/
theorem clockEdge_withRegister (p : PortIn sampleW) (s : State sampleW idW holdW) :
    OutcomesAlike (clockEdge p s) (clockEdge p (s.withRegister rsp valid errors)) := by
  unfold clockEdge
  split
  · exact .next ⟨rfl, rfl, rfl, rfl, rfl, nofun⟩
  · split
    · exact acceptWord_withRegister rsp valid errors p.cmd s
    · exact .next ⟨rfl, rfl, rfl, rfl, rfl, nofun⟩

end

/-- Settles O27: the two edges have outcomes alike (clockEdge_withRegister). -/
theorem responseRegisterIsNeverRead : Obligations.ResponseRegisterIsNeverRead := by
  intro s rsp valid errors
  have alike : OutcomesAlike (step s) (step (s.withRegister rsp valid errors)) :=
    clockEdge_withRegister rsp valid errors s.presented s.advance
  refine ⟨fun t ht => ?_, fun _ => alike.of_fault⟩
  obtain ⟨t', ht', h⟩ := alike.of_next ht
  exact ⟨t', ht', h.cur, h.engine, h.wasReset, h.inputs, h.rspValid, h.rsp⟩

end Sys2Proof.Machine

/-! ## The output ports (10_state.md R42) -/

namespace Sys2Proof.Machine

variable {sampleW idW holdW : Nat} {s t : State sampleW idW holdW} {e : Engine idW holdW}

/-- A legal state represents the controller that `cur` names. -/
theorem State.Legal.represents (h : s.Legal) : Represents s s.engine ⟨s.cur.toNat, h.2⟩ :=
  ⟨rfl, h.1, by simp [stateCode]⟩

/-- Settles O37: the ports of a represented controller are its row (Represents.outPorts). -/
theorem outputsAreMoore : Obligations.OutputsAreMoore :=
  fun s h free inputs => State.Legal.represents (s := { s with inputs := inputs }) h |>.outPorts free

/-- A running machine represents a controller of its table. -/
theorem State.Running.represents (h : s.Running e) : ∃ c, Represents s e c := by
  obtain ⟨hr, hinv, rfl⟩ := h
  exact ⟨_, (hinv.legal hr).represents⟩

/-- Whatever edges a running machine takes, it is running after them. -/
theorem State.Running.of_runEdges (h : s.Running e) {k : Nat} (hk : runEdges k s = .next t) : t.Running e := by
  obtain ⟨u, hu, hrun⟩ := runEdges_of_running k h
  cases hu.symm.trans hk
  exact hrun

/-- Every row of this hardware has safe lights (10_state.md R40, 92_eei_decisions.md D8). -/
theorem thisEngine_safeLights : ∀ c : Fin thisEngine.n,
    safeLights primaryLayout pedLayout (contractOutputs thisEngine c).primary (contractOutputs thisEngine c).ped = true := by
  decide

/-- Settles O53: after any run the ports show a row of the table, and every row is safe. -/
theorem lightsNeverConflict : Obligations.LightsNeverConflict := by
  intro k s t free he hr hinv hk
  have running : s.Running thisEngine := ⟨hr, hinv, he⟩
  obtain ⟨c, hc⟩ := (running.of_runEdges hk).represents
  rw [hc.outPorts]
  exact thisEngine_safeLights c

end Sys2Proof.Machine

/-! ## This hardware's table (10_state.md R30 to R41) -/

namespace Sys2Proof.Machine

/-- A STEP in range moves to the successor the table gives (41_step.md R110, R111). -/
theorem Represents.exec_step {s : State} {e : Engine} {c : Fin e.n} (h : Represents s e c) {v : Sample} {i : InputIndex}
    (hi : sampleIndex v = some i) : ∃ t, exec (.step v) s = .next t ∧ Represents t e e.rows[c.val].next[i.val] := by
  obtain ⟨t, ht, hrep, -⟩ := h.step v
  rw [acceptWord_encode, ← exec_eq_perform] at ht
  rw [contractNext_of_index e c hi] at hrep
  exact ⟨t, ht, hrep⟩

/-- A sample in range is the word of its index. -/
theorem exists_index_of_le {v : Sample} (h : v.toNat ≤ 7) :
    ∃ i : InputIndex, v = BitVec.ofNat Config.sampleW i.val ∧ sampleIndex v = some i :=
  ⟨⟨v.toNat, by omega⟩, by simp, sampleIndex_of_lt (by omega)⟩

/-- The successors of goPed: itself for the samples 0 and 4, and otherwise flashON1 (10_state.md R35). -/
theorem thisEngine_goPed_next : ∀ i : InputIndex, stateCode thisEngine.rows[4].next[i.val] =
    if BitVec.ofNat Config.sampleW i.val = 0 ∨ BitVec.ofNat Config.sampleW i.val = 4 then 4#4 else 5#4 := by
  decide

/-- Settles O47: the successor of goPed, read from its row for each of the eight inputs. -/
theorem goPedLeavesOnlyForCars : Obligations.GoPedLeavesOnlyForCars := by
  intro s v he hr hc hv
  obtain ⟨i, rfl, hi⟩ := exists_index_of_le hv
  obtain ⟨t, ht, hrep⟩ := (⟨he, hr, hc⟩ : Represents s thisEngine (4 : Fin 9)).exec_step hi
  exact ⟨t, ht, hrep.cur.trans (thisEngine_goPed_next i)⟩

/-- A state whose row has the same successor for every input advances to it on every sample in range. -/
theorem exec_step_of_sameNext {s : State} {v : Sample} {c k : Fin 9} (he : s.engine = thisEngine) (hr : s.wasReset = true)
    (hv : v.toNat ≤ 7) (hrow : thisEngine.rows[c.val].next = sameNext k) (hc : s.cur = stateCode c) :
    ∃ t, exec (.step v) s = .next t ∧ t.cur = stateCode k := by
  obtain ⟨i, -, hi⟩ := exists_index_of_le hv
  obtain ⟨t, ht, hrep⟩ := (⟨he, hr, hc⟩ : Represents s thisEngine c).exec_step hi
  have hnext : thisEngine.rows[c.val].next[i.val] = k := hrow ▸ Vector.getElem_replicate _
  exact ⟨t, ht, hnext ▸ hrep.cur⟩

/-- Settles O48: the rows 5, 6 and 7 have one successor each. -/
theorem flashStatesAdvance : Obligations.FlashStatesAdvance := fun _ _ he hr hv =>
  ⟨exec_step_of_sameNext (c := 5) (k := 6) he hr hv rfl, exec_step_of_sameNext (c := 6) (k := 7) he hr hv rfl,
    exec_step_of_sameNext (c := 7) (k := 8) he hr hv rfl⟩

/-- The input index of three sensor readings: the pedestrian weighs 4, the car on S 2, the car on W 1 (30_encoding.md R70). -/
def sensorIndex (pedestrian carS carW : Bool) : InputIndex :=
  ⟨4 * pedestrian.toNat + 2 * carS.toNat + carW.toNat, by
    have := pedestrian.toNat_le
    have := carS.toNat_le
    have := carW.toNat_le
    omega⟩

/-- The packed readings are in range, at the index of their weights. -/
theorem sampleIndex_packSensors : ∀ pedestrian carS carW : Bool,
    sampleIndex (packSensors pedestrian carS carW) = some (sensorIndex pedestrian carS carW) := by
  decide

/-- Every input index is that of three sensor readings. -/
theorem sensorIndex_surjective : ∀ i : InputIndex, ∃ pedestrian carS carW : Bool, sensorIndex pedestrian carS carW = i := by
  decide

/-- The samples in range are exactly the packed readings. -/
theorem toNat_le_iff_packSensors (v : Sample) :
    v.toNat ≤ 7 ↔ ∃ pedestrian carS carW : Bool, v = packSensors pedestrian carS carW := by
  constructor
  · intro h
    obtain ⟨i, -, hi⟩ := exists_index_of_le h
    obtain ⟨pedestrian, carS, carW, rfl⟩ := sensorIndex_surjective i
    have same := sampleIndex_eq_some_iff.mp (sampleIndex_packSensors pedestrian carS carW)
    exact ⟨pedestrian, carS, carW, BitVec.eq_of_toNat_eq ((sampleIndex_eq_some_iff.mp hi).trans same.symm)⟩
  · rintro ⟨pedestrian, carS, carW, rfl⟩
    exact (sampleIndex_isSome_iff _).mp (sampleIndex_packSensors pedestrian carS carW ▸ rfl)

/-- The rows of this hardware have the successors described by the sensors (10_state.md R31 to R39). -/
theorem thisEngine_next (x : StateName) : ∀ pedestrian carS carW : Bool,
    stateCode thisEngine.rows[x.id.val].next[(sensorIndex pedestrian carS carW).val] =
      (describedNext x pedestrian carS carW).code := by
  cases x <;> decide

/-- Settles O49: a STEP with a packed reading looks up the described successor. -/
theorem sensorsDecideSuccessor : Obligations.SensorsDecideSuccessor := by
  refine ⟨fun s x pedestrian carS carW he hr hc => ?_, toNat_le_iff_packSensors⟩
  have state : Represents s thisEngine x.id := ⟨he, hr, hc⟩
  obtain ⟨t, ht, hrep⟩ := state.exec_step (sampleIndex_packSensors pedestrian carS carW)
  exact ⟨t, ht, hrep.cur.trans (thisEngine_next x pedestrian carS carW)⟩

/-- The outputs of this hardware's rows are the described lights and holds (10_state.md R40, R41). -/
theorem thisEngine_outputs (x : StateName) :
    shows primaryLayout (contractOutputs thisEngine x.id).primary .w (describedOutputs x).1 = true ∧
      shows primaryLayout (contractOutputs thisEngine x.id).primary .s (describedOutputs x).2.1 = true ∧
      pedShows pedLayout (contractOutputs thisEngine x.id).ped (describedOutputs x).2.2.1 = true ∧
      Config.tickMs * (contractOutputs thisEngine x.id).hold.toNat = (describedOutputs x).2.2.2 := by
  cases x <;> decide

/-- Settles O52: the ports of a named state carry its row's outputs. -/
theorem eachStateShowsItsLights : Obligations.EachStateShowsItsLights := by
  intro s x free he hr hc
  have state : Represents s thisEngine x.id := ⟨he, hr, hc⟩
  rw [state.outPorts]
  exact thisEngine_outputs x

end Sys2Proof.Machine

/-! # Proofs: the memory (20_memory.md) -/

/-! ## A plan is taken in order, one edge at a time (20_memory.md R58) -/

namespace Sys2Proof.Machine

variable {sampleW idW holdW : Nat}

/-- `s` with another plan of the host's. -/
def State.withPlan (ps : List (PortIn sampleW)) (s : State sampleW idW holdW) : State sampleW idW holdW :=
  { s with inputs := ps }

@[simp] theorem State.withPlan_engine (ps : List (PortIn sampleW)) (s : State sampleW idW holdW) :
    (s.withPlan ps).engine = s.engine := rfl
@[simp] theorem State.withPlan_cur (ps : List (PortIn sampleW)) (s : State sampleW idW holdW) :
    (s.withPlan ps).cur = s.cur := rfl

/-- A plan of command words is one of the plans of port inputs. -/
theorem State.withCommands_eq_withPlan (ws : List (CmdWord sampleW)) (s : State sampleW idW holdW) :
    s.withCommands ws = s.withPlan (ws.map PortIn.command) := rfl

/-- An outcome with another plan in its next state. -/
def resultWithPlan (ps : List (PortIn sampleW)) (r : Result sampleW idW holdW) : Result sampleW idW holdW :=
  andThen r fun t => .next (t.withPlan ps)

section
variable (ps : List (PortIn sampleW)) (s : State sampleW idW holdW)

/-- A response neither reads the plan nor takes from it. -/
theorem respond_withPlan (st : Status) (x : StateId idW) :
    respond st x (s.withPlan ps) = resultWithPlan ps (respond st x s) := by
  cases ho : s.engine.outputs? x with
  | some o =>
    rw [respond_of_outputs st ho, respond_of_outputs (s := s.withPlan ps) st ho]
    rfl
  | none =>
    rw [respond_of_no_outputs st ho, respond_of_no_outputs (s := s.withPlan ps) st ho]
    rfl

/-- The guard of a command does not read the plan. -/
theorem whenReset_withPlan {r r' : Result sampleW idW holdW} (h : r' = resultWithPlan ps r) :
    whenReset (s.withPlan ps) r' = resultWithPlan ps (whenReset s r) := by
  cases hr : s.wasReset with
  | true => rwa [whenReset_of_reset hr, whenReset_of_reset (s := s.withPlan ps) hr]
  | false =>
    rw [whenReset_of_not_reset hr, whenReset_of_not_reset (s := s.withPlan ps) hr]
    rfl

/-- No command reads the plan or takes from it. -/
theorem perform_withPlan (i : Instr sampleW) : perform i (s.withPlan ps) = resultWithPlan ps (perform i s) := by
  cases i with
  | nop => exact whenReset_withPlan ps s (respond_withPlan ps s .ok s.cur)
  | init => exact whenReset_withPlan ps s (respond_withPlan ps (s.writeCur s.engine.startId) .ok s.engine.startId)
  | step v =>
    refine whenReset_withPlan ps s ?_
    cases sampleIndex v with
    | none => exact respond_withPlan ps s .outOfRangeInput s.cur
    | some i =>
      simp only [State.withPlan_engine, State.withPlan_cur]
      cases nextStateDecoder s.engine s.cur i with
      | some x => exact respond_withPlan ps (s.writeCur x) .ok x
      | none => rfl
  | outputs => exact whenReset_withPlan ps s (respond_withPlan ps s .ok s.cur)

/-- No accepted word, legal or illegal, reads the plan or takes from it. -/
theorem acceptWord_withPlan (w : CmdWord sampleW) : acceptWord w (s.withPlan ps) = resultWithPlan ps (acceptWord w s) := by
  unfold acceptWord
  split
  · exact perform_withPlan ps s _
  · exact whenReset_withPlan ps s (respond_withPlan ps s .illegalCommand s.cur)

/-- No edge, once its port inputs are given, reads the plan or takes from it. -/
theorem clockEdge_withPlan (p : PortIn sampleW) : clockEdge p (s.withPlan ps) = resultWithPlan ps (clockEdge p s) := by
  unfold clockEdge
  split
  · rfl
  · split
    · exact acceptWord_withPlan ps s p.cmd
    · rfl

end

/-- An edge of a machine with a plan is the edge of the plan's head, and the rest of the plan is left. -/
theorem stepAt_withPlan_cons (p : PortIn sampleW) (ps : List (PortIn sampleW)) (s : State sampleW idW holdW) :
    stepAt (s.withPlan (p :: ps)) = resultWithPlan ps (clockEdge p s) :=
  clockEdge_withPlan ps s p

/-- A run through a plan takes its edges in order, one after another, until one of them stops. -/
theorem runEdges_withPlan : ∀ (ps : List (PortIn sampleW)) (s : State sampleW idW holdW),
    runEdges ps.length (s.withPlan ps) = edgesOn ps (s.withPlan [])
  | [], _ => rfl
  | p :: ps, s => by
    rw [List.length_cons, runEdges_succ, stepAt_withPlan_cons, edgesOn_cons, clockEdge_withPlan]
    cases clockEdge p s with
    | next t => exact runEdges_withPlan ps t
    | fault f => rfl
    | refused q => rfl

/-- The edges that present command words accept those words. -/
theorem edgesOn_map_command : ∀ (ws : List (CmdWord sampleW)) (s : State sampleW idW holdW),
    edgesOn (ws.map PortIn.command) s = acceptWords ws s
  | [], _ => rfl
  | w :: ws, s => congrArg (andThen (acceptWord w s)) (funext (edgesOn_map_command ws))

/-- Settles O33: the run takes the plan's edges in order (runEdges_withPlan), and these accept its words. -/
theorem runAcceptsCommandsInOrder : Obligations.RunAcceptsCommandsInOrder := by
  intro ws s
  have inOrder := runEdges_withPlan (ws.map PortIn.command) s
  rwa [List.length_map, edgesOn_map_command, ← State.withCommands_eq_withPlan] at inOrder

end Sys2Proof.Machine

/-! ## Instances of a group (20_memory.md R63, 60_exceptions.md R149) -/

namespace Sys2Proof.Machine

variable {sampleW idW holdW m : Nat} {group g : Vector (State sampleW idW holdW) m} {j k : Fin m}
  {t tj tk : State sampleW idW holdW}

/-- An engine whose edge is answered steps its group, and only its own place in it. -/
theorem stepInstance_of_next (h : stepAt group[k.val] = .next t) : stepInstance k group = .next (group.set k.val t) := by
  simp only [stepInstance, h]

/-- Everything a step of a group can do: answer the edge of the one engine and write it in its place. -/
theorem stepInstance_next (h : stepInstance k group = .next g) :
    ∃ t, stepAt group[k.val] = .next t ∧ g = group.set k.val t := by
  unfold stepInstance at h
  split at h
  · cases h
    exact ⟨_, ‹_›, rfl⟩
  · exact nomatch h
  · exact nomatch h

/-- A step of one engine of a group leaves every other as it was. -/
theorem stepInstance_frame (hjk : j ≠ k) (h : stepInstance k group = .next g) : g[j.val] = group[j.val] := by
  obtain ⟨t, -, rfl⟩ := stepInstance_next h
  exact Vector.getElem_set_ne k.isLt j.isLt (Fin.val_ne_of_ne hjk.symm)

/-- Steps of two different engines of a group: the second sees its own state as it was before the first. -/
theorem stepInstance_andThen_stepInstance (hjk : j ≠ k) (hj : stepAt group[j.val] = .next tj)
    (hk : stepAt group[k.val] = .next tk) :
    andThen (stepInstance j group) (stepInstance k) = .next ((group.set j.val tj).set k.val tk) := by
  have first := stepInstance_of_next hj
  rw [first, andThen_next]
  exact stepInstance_of_next (stepInstance_frame hjk.symm first ▸ hk)

/-- Settles O36: each step writes its own place, so the two orders write the same group. -/
theorem instancesAreIndependent : Obligations.InstancesAreIndependent := by
  intro m group j k hjk
  refine ⟨fun g => stepInstance_frame hjk, fun tj tk hj hk => ⟨stepInstance_andThen_stepInstance hjk hj hk, ?_⟩⟩
  rw [stepInstance_andThen_stepInstance hjk.symm hk hj, Vector.set_comm _ _ (Fin.val_ne_of_ne hjk.symm)]

end Sys2Proof.Machine

/-! # Proofs: the encoding (30_encoding.md) -/

/-! ## The words of the commands and the illegal words (30_encoding.md R79 to R86) -/

namespace Sys2Proof.Machine

variable {sampleW : Nat}

/-- Settles O3: every field of the word is read back (decode_encode). -/
theorem decodeInvertsEncode : Obligations.DecodeInvertsEncode := decode_encode

/-- Settles O4: the word of a command is determined by the fields the decoder compared (encode_of_decode). -/
theorem encodeInvertsDecode : Obligations.EncodeInvertsDecode := fun _ _ => encode_of_decode

/-- A word decodes to a command exactly when it is that command's word. -/
theorem decode_eq_ok_iff_encode {w : CmdWord sampleW} {i : Instr sampleW} : decode w = .ok i ↔ encode i = w :=
  ⟨encode_of_decode, fun h => h ▸ decode_encode i⟩

/-- A word decodes to a command exactly when its three fields are that command's. -/
theorem decode_eq_ok_iff_fields {w : CmdWord sampleW} {i : Instr sampleW} :
    decode w = .ok i ↔ operandField w = i.operand ∧ rsvField w = 0 ∧ opField w = i.opcode := by
  obtain ⟨hs, hrsv, hop⟩ := fields_of_decode (decode_encode i)
  exact ⟨fields_of_decode, fun ⟨ws, wrsv, wop⟩ =>
    decode_eq_ok_iff_encode.mpr (word_ext (hop.trans wop.symm) (hrsv.trans wrsv.symm) (hs.trans ws.symm))⟩

/-- The rule of illegal words, said of the three fields the decoder reads. -/
theorem illegalByRule_iff {w : CmdWord sampleW} :
    IllegalByRule w ↔ 4 ≤ (opField w).toNat ∨ rsvField w ≠ 0 ∨
      ((opField w = 0x0#4 ∨ opField w = 0x1#4 ∨ opField w = 0x3#4) ∧ operandField w ≠ 0) := Iff.rfl

/-- The opcodes that are not 0x4 to 0xF are the four of the table (30_encoding.md R80). -/
theorem opcode_cases {op : BitVec 4} (h : ¬4 ≤ op.toNat) : op = 0x0#4 ∨ op = 0x1#4 ∨ op = 0x2#4 ∨ op = 0x3#4 := by
  bv_omega

/-- The word of a command is legal by the rule. -/
theorem not_illegalByRule_encode (i : Instr sampleW) : ¬IllegalByRule (encode i) := by
  cases i <;> simp [illegalByRule_iff, encode, Instr.opcode, Instr.operand]

/-- A word that is legal by the rule has the fields of one of the four commands. -/
theorem exists_decode_of_legal {w : CmdWord sampleW} (h : ¬IllegalByRule w) : ∃ i, decode w = .ok i := by
  simp only [illegalByRule_iff, not_or, ne_eq, not_not, not_and] at h
  obtain ⟨hop, hrsv, noOperand⟩ := h
  obtain h0 | h1 | h2 | h3 := opcode_cases hop
  · exact ⟨.nop, decode_eq_ok_iff_fields.mpr ⟨noOperand (.inl h0), hrsv, h0⟩⟩
  · exact ⟨.init, decode_eq_ok_iff_fields.mpr ⟨noOperand (.inr (.inl h1)), hrsv, h1⟩⟩
  · exact ⟨.step (operandField w), decode_eq_ok_iff_fields.mpr ⟨rfl, hrsv, h2⟩⟩
  · exact ⟨.outputs, decode_eq_ok_iff_fields.mpr ⟨noOperand (.inr (.inr h3)), hrsv, h3⟩⟩

/-- The decoder rejects exactly the words that are illegal by the rule, at every width of the operand. -/
theorem decode_rejects_iff {w : CmdWord sampleW} : (∃ r, decode w = .error r) ↔ IllegalByRule w := by
  constructor
  · rintro ⟨r, hr⟩
    by_contra hlegal
    obtain ⟨i, hi⟩ := exists_decode_of_legal hlegal
    exact nomatch hr.symm.trans hi
  · intro hill
    cases hw : decode w with
    | error r => exact ⟨r, rfl⟩
    | ok i => exact absurd (encode_of_decode hw ▸ hill) (not_illegalByRule_encode i)

/-- Settles O5: legal words are the words of commands, in both directions. -/
theorem decodeRejectsExactlyIllegalWords : Obligations.DecodeRejectsExactlyIllegalWords := fun _ => decode_rejects_iff

/-- The mask 0x00FF leaves the reserved field and the opcode (30_encoding.md R83). -/
theorem lowByte_eq_step_iff (w : CmdWord) : w &&& 0x00FF#16 = 0x0002#16 ↔ rsvField w = 0x0#4 ∧ opField w = 0x2#4 := by
  have hmask : (w &&& 0x00FF#16).toNat = w.toNat % 2 ^ 8 := Nat.and_two_pow_sub_one_eq_mod w.toNat 8
  simp only [← BitVec.toNat_inj, hmask, rsvField, opField, BitVec.extractLsb'_toNat, Nat.shiftRight_eq_div_pow,
    BitVec.toNat_ofNat, Config.sampleW]
  omega

/-- A command without free bits is read from exactly its own word (30_encoding.md R81, R82, R84). -/
theorem decode_eq_ok_iff_wholeWord {w : CmdWord} {i : Instr} : decode w = .ok i ↔ w &&& 0xFFFF#16 = encode i := by
  rw [decode_eq_ok_iff_encode, eq_comm, show (0xFFFF#16 : CmdWord) = BitVec.allOnes 16 from rfl, BitVec.and_allOnes]

/-- Settles O6: NOP, INIT and OUTPUTS by their whole word, STEP by its low byte. -/
theorem tableRowsMatchUnderTheirMasks : Obligations.TableRowsMatchUnderTheirMasks := by
  refine fun w => ⟨decode_eq_ok_iff_wholeWord, decode_eq_ok_iff_wholeWord, fun v => ?_, decode_eq_ok_iff_wholeWord⟩
  rw [decode_eq_ok_iff_fields, lowByte_eq_step_iff, and_comm, eq_comm (a := v)]
  rfl

/-- The word of a STEP is its sample followed by one byte, the reserved field and the opcode (30_encoding.md R83). -/
theorem encode_step (v : Sample) : encode (.step v) = v ++ 0x02#8 :=
  (BitVec.append_assoc (x₁ := v) (x₂ := 0x0#4) (x₃ := 0x2#4))

/-- Settles O1: the words of R81 to R84. -/
theorem commandsEncodeAsWritten : Obligations.CommandsEncodeAsWritten := ⟨rfl, rfl, encode_step, rfl⟩

/-- Settles O2: each word is read by its three fields. -/
theorem wordsWrittenOutDecode : Obligations.WordsWrittenOutDecode := ⟨rfl, rfl, rfl, rfl, rfl, rfl, rfl, rfl⟩

end Sys2Proof.Machine

/-! ## The command syntax (30_encoding.md R90) -/

namespace Sys2Proof.Machine

/-- A sample of 8 bits carries an integer modulo 256. -/
theorem sampleOfInt_toNat (n : Int) : ((sampleOfInt n).toNat : Int) = n % 256 := by
  simp only [sampleOfInt, BitVec.toNat_ofInt, Config.sampleW]
  omega

/-- A STEP line has a word exactly when its number is in range. -/
theorem assemble_step (n : Int) :
    assemble (.step n) = if -128 ≤ n ∧ n ≤ 255 then some (encode (.step (sampleOfInt n))) else none := by
  simp [assemble, AsmLine.wf]

/-- Settles O8: in range the word is that of STEP with the number modulo 256, and outside there is none. -/
theorem stepLineAssembles : Obligations.StepLineAssembles := by
  refine fun n => ⟨fun h => ?_, fun h => ?_⟩
  · exact ⟨_, _, (assemble_step n).trans (if_pos h), decode_encode _, sampleOfInt_toNat n⟩
  · exact (assemble_step n).trans (if_neg (by omega))

/-- Stripping the comment drops a semicolon and what follows it. -/
theorem stripComment_append_comment (text comment : List Char) :
    stripComment (text ++ ';' :: comment) = stripComment text := by
  induction text with
  | nil => rfl
  | cons c cs ih => simp only [List.cons_append, stripComment, ih]

/-- Settles O9: a line is read from its text without the comment. -/
theorem commentIsIgnored : Obligations.CommentIsIgnored := fun text comment => by
  simp only [parseLine, stripComment_append_comment]

end Sys2Proof.Machine

/-! ## Edges: accepted words, idle edges and the host's plan (30_encoding.md R78, 40_controller_ops.md R101) -/

namespace Sys2Proof.Machine

variable {sampleW idW holdW : Nat} {p : PortIn sampleW} {s : State sampleW idW holdW}

/-- Without reset, a valid command is accepted. -/
theorem clockEdge_of_command (hrst : p.rst = false) (hvalid : p.cmdValid = true) : clockEdge p s = acceptWord p.cmd s := by
  simp [clockEdge, hrst, hvalid]

/-- Without reset and without a valid command, an edge is idle. -/
theorem clockEdge_of_idle (hrst : p.rst = false) (hvalid : p.cmdValid = false) : clockEdge p s = .next s.idleEdge := by
  simp [clockEdge, hrst, hvalid]

/-- A legal word is performed as the command it decodes to. -/
theorem acceptWord_of_decode {w : CmdWord sampleW} {i : Instr sampleW} (h : decode w = .ok i) :
    acceptWord w s = perform i s := by
  simp only [acceptWord, h]

/-- Settles O17: the edge accepts the word, and the dispatch is the meaning of its command. -/
theorem edgeRunsDecodedCommand : Obligations.EdgeRunsDecodedCommand := fun s i hacc hw =>
  calc step s
    _ = acceptWord s.presented.cmd s.advance := clockEdge_of_command hacc.1 hacc.2
    _ = perform i s.advance := acceptWord_of_decode hw
    _ = exec i s.advance := (exec_eq_perform i s.advance).symm

/-- Settles O20: an idle edge of the machine past its plan's head. -/
theorem idleEdgeOnlyDropsValid : Obligations.IdleEdgeOnlyDropsValid := fun _ => clockEdge_of_idle

/-- With no plan left every edge is idle, and an idle edge repeated is one idle edge. -/
theorem runEdges_withPlan_nil : ∀ (k : Nat) (s : State sampleW idW holdW),
    runEdges (k + 1) (s.withPlan []) = .next (s.withPlan []).idleEdge
  | 0, _ => rfl
  | k + 1, s => runEdges_withPlan_nil k s.idleEdge

/-- Settles O32: the host's run is a run of edges (core_run_eq), through the plan and past it. -/
theorem hostMachineFollowsThePlan : Obligations.HostMachineFollowsThePlan := fun ps k s =>
  ⟨(core_run_eq ps.length (s.withPlan ps)).trans (runEdges_withPlan ps s),
    (core_run_eq (k + 1) (s.withPlan [])).trans (runEdges_withPlan_nil k s)⟩

end Sys2Proof.Machine

/-! ## The response to an accepted word (30_encoding.md R87 to R89) -/

namespace Sys2Proof.Machine

variable {sampleW idW holdW : Nat} {s t : State sampleW idW holdW}

/-- The status a command is answered with after a reset: OUT_OF_RANGE_INPUT for a STEP with a sample above 7, else OK. -/
def answerStatus : Instr sampleW → Status
  | .nop => .ok
  | .init => .ok
  | .step v => if 7 < v.toNat then .outOfRangeInput else .ok
  | .outputs => .ok

/-- The status by the rule, said of the fields the decoder reads. -/
theorem statusByRule_eq (w : CmdWord sampleW) :
    statusByRule w =
      if IllegalByRule w then 0b10#2 else if opField w = 0x2#4 ∧ 7 < (operandField w).toNat then 0b01#2 else 0b00#2 := rfl

/-- The rule gives the word of a command the status that command is answered with. -/
theorem statusByRule_encode (i : Instr sampleW) : statusByRule (encode i) = (answerStatus i).code := by
  obtain ⟨hoperand, -, hop⟩ := fields_of_decode (decode_encode i)
  rw [statusByRule_eq, if_neg (not_illegalByRule_encode i), hop, hoperand]
  cases i with
  | nop => rfl
  | init => rfl
  | step v =>
    simp only [Instr.opcode, Instr.operand, true_and, answerStatus]
    split <;> rfl
  | outputs => rfl

/-- Every answer to a command has the status of that command. -/
theorem perform_next_answerStatus {i : Instr sampleW} (h : perform i s = .next t) : ∃ x, Answers s t (answerStatus i) x := by
  cases i with
  | nop => exact ⟨_, respond_writeCur_next (x := s.cur) (whenReset_next h).2⟩
  | init => exact ⟨_, respond_writeCur_next (whenReset_next h).2⟩
  | step v =>
    obtain ⟨-, ⟨i, x, hi, -, ha⟩ | ⟨hv, ha⟩⟩ := execStep_next h
    · have hle : v.toNat ≤ 7 := (sampleIndex_isSome_iff v).mp (hi ▸ rfl)
      exact ⟨x, by rwa [answerStatus, if_neg (Nat.not_lt.mpr hle)]⟩
    · exact ⟨s.cur, by rwa [answerStatus, if_pos (sampleIndex_eq_none_iff.mp hv)]⟩
  | outputs => exact ⟨_, respond_writeCur_next (x := s.cur) (whenReset_next h).2⟩

/-- Every answer to a word, legal or illegal, has the status the rule calls for. -/
theorem acceptWord_next_status {w : CmdWord sampleW} (h : acceptWord w s = .next t) :
    ∃ st x, Answers s t st x ∧ st.code = statusByRule w := by
  cases hw : decode w with
  | ok i =>
    obtain ⟨x, ha⟩ := perform_next_answerStatus (acceptWord_of_decode hw ▸ h)
    exact ⟨_, x, ha, encode_of_decode hw ▸ (statusByRule_encode i).symm⟩
  | error r =>
    simp only [acceptWord, hw] at h
    refine ⟨.illegalCommand, s.cur, (illegalCommand_next h).2, ?_⟩
    exact (if_pos (decode_rejects_iff.mp ⟨r, hw⟩)).symm

/-- The response register after an answer holds the response of the state the block is then in. -/
theorem Answers.rsp_eq {st : Status} {x : StateId idW} (h : Answers s t st x) (ht : t.Legal) :
    t.rsp = responseWord st t.cur (t.outputs ht) := by
  obtain ⟨o, ho, rfl⟩ := h
  have hrow := ho.symm.trans (s.engine.outputs?_of_lt ht.2)
  exact congrArg (responseWord st x) (Option.some.inj hrow)

/-- An answer to a legal state leaves a legal state. -/
theorem Answers.legal {st : Status} {x : StateId idW} (h : Answers s t st x) (hs : s.Legal) : t.Legal := by
  obtain ⟨-, hreset, -⟩ := h.frame
  exact ⟨hreset.trans hs.1, h.cur_lt⟩

/-- Settles O22: the answer is the response word of the state it leaves, and its fields are read back. -/
theorem responseLayoutOfEveryAnswer : Obligations.ResponseLayoutOfEveryAnswer := by
  intro s hs hacc
  obtain ⟨t, -, -, ht, -⟩ := acceptWord_of_legal s.presented.cmd (s := s.advance) hs
  obtain ⟨st, x, ha, hst⟩ := acceptWord_next_status ht
  obtain ⟨-, -, -, -, hvalid, -⟩ := ha.frame
  have hlegal : t.Legal := ha.legal hs
  obtain ⟨hcur, hprimary, hped, hhold⟩ := responseWord_fields st t.cur (t.outputs hlegal)
  refine ⟨t, (clockEdge_of_command hacc.1 hacc.2).trans ht, hvalid, hlegal, ha.rsp_status.trans hst, ?_⟩
  rw [ha.rsp_eq hlegal]
  exact ⟨responseWord_reserved st t.cur _, hcur, hprimary, hped, hhold⟩

/-- Settles O24: an accepting edge answers with the status the rule calls for, and the two other edges keep `rsp`. -/
theorem responseRegisterTiming : Obligations.ResponseRegisterTiming := by
  intro s t h
  obtain ⟨hrst, rfl⟩ | ⟨hrst, hvalid, hw⟩ | ⟨-, hvalid, rfl⟩ := clockEdge_next h
  · exact ⟨(fun hacc => nomatch hrst.symm.trans hacc.1), fun _ => ⟨rfl, rfl⟩⟩
  · refine ⟨fun _ => ?_, fun hn => absurd ⟨hrst, hvalid⟩ hn⟩
    obtain ⟨st, x, ha, hst⟩ := acceptWord_next_status hw
    obtain ⟨-, hreset, -, -, hrsp, -⟩ := ha.frame
    have hagrees := (ha.inv (hreset.trans (acceptWord_next hw).1)).2 hrsp
    exact ⟨hrsp, hagrees, ha.rsp_status.trans hst⟩
  · exact ⟨(fun hacc => nomatch hvalid.symm.trans hacc.2), fun _ => ⟨rfl, rfl⟩⟩

/-- The host reads back every field of a response word. -/
theorem readResponse_responseWord (st : Status) (x : StateId idW) (o : Outputs holdW) :
    readResponse (responseWord st x o) =
      .ok { status := st, state := x, primary := o.primary, ped := o.ped, hold := o.hold } := by
  simp [readResponse]

/-- Settles O39: a response word is read back, and each of the three refusals is the reader's first test that fails. -/
theorem hostReadsBackResponses : Obligations.HostReadsBackResponses := by
  refine ⟨readResponse_responseWord, fun w hw => if_pos hw, fun w hreserved hstatus => ?_, fun s hs => ?_⟩
  · simp [readResponse, hreserved, hstatus, statusOfCode]
  · simp [State.hostRead, State.responsePort, hs]

end Sys2Proof.Machine

/-! # Proofs: the controller operations (40_controller_ops.md) -/

/-! ## NOP and OUTPUTS answer in place (40_controller_ops.md R100, R104, R105) -/

namespace Sys2Proof.Machine

variable {sampleW idW holdW : Nat} {s t : State sampleW idW holdW} {e : Engine idW holdW} {c : Fin e.n}

/-- A legal state with the OK response of `cur` loaded, what NOP and OUTPUTS leave. An OK status adds nothing to the record, so
`rsp` and `rsp_valid` are all that is written. -/
def State.answeredOk (s : State sampleW idW holdW) (h : s.Legal) : State sampleW idW holdW :=
  s.loadResponse .ok (responseWord .ok s.cur (s.outputs h))

/-- The answer in place leaves a legal state, since it keeps `cur` and the table. -/
theorem State.answeredOk_legal (h : s.Legal) : (s.answeredOk h).Legal := h

/-- Answering twice is answering once: the response is of `cur` and the table, which the answer keeps. -/
theorem State.answeredOk_answeredOk (h : s.Legal) :
    (s.answeredOk h).answeredOk (s.answeredOk_legal h) = s.answeredOk h := rfl

/-- `respond(OK, cur)` after a reset, the whole of NOP and of OUTPUTS. -/
theorem whenReset_respond_ok (h : s.Legal) : whenReset s (respond .ok s.cur s) = .next (s.answeredOk h) :=
  (whenReset_of_reset h.1 _).trans (respond_of_outputs .ok (s.engine.outputs?_of_lt h.2))

/-- NOP in a legal state (40_controller_ops.md R100). -/
theorem perform_nop_of_legal (h : s.Legal) : perform .nop s = .next (s.answeredOk h) := whenReset_respond_ok h

/-- OUTPUTS in a legal state (40_controller_ops.md R104). -/
theorem perform_outputs_of_legal (h : s.Legal) : perform .outputs s = .next (s.answeredOk h) := whenReset_respond_ok h

/-- One OUTPUTS word or more in a row leave what one leaves. -/
theorem acceptWords_replicate_outputs : ∀ (k : Nat) {s : State sampleW idW holdW} (h : s.Legal),
    acceptWords (List.replicate (k + 1) (encode .outputs)) s = .next (s.answeredOk h)
  | 0, s, h => by
    rw [List.replicate_one, acceptWords_cons, acceptWord_encode, perform_outputs_of_legal h, andThen_next, acceptWords_nil]
  | k + 1, s, h => by
    rw [List.replicate_succ, acceptWords_cons, acceptWord_encode, perform_outputs_of_legal h, andThen_next,
      acceptWords_replicate_outputs k (s.answeredOk_legal h), s.answeredOk_answeredOk]

/-- Settles O12: one OUTPUTS by its meaning, and a row of them by induction on their number. -/
theorem outputsIsAPureRead : Obligations.OutputsIsAPureRead :=
  ⟨fun s h => (exec_eq_perform .outputs s).trans (perform_outputs_of_legal h),
    fun _ h k => acceptWords_replicate_outputs k h⟩

/-- The ports are a function of the controller represented: the response, the record and the plan do not show on them. -/
theorem Represents.outPorts_congr (hs : Represents s e c) (ht : Represents t e c) (free : OutPorts idW holdW) :
    t.outPorts free = s.outPorts free := by
  rw [hs.outPorts, ht.outPorts, hs.cur, ht.cur]

/-- The answer in place keeps the controller represented. -/
theorem Represents.answeredOk (hs : Represents s e c) : Represents (s.answeredOk hs.legal) e c :=
  ⟨hs.engine, hs.wasReset, hs.cur⟩

/-- The host reads from the answer in place status OK, `cur` and its outputs. -/
theorem State.answeredOk_hostRead (h : s.Legal) :
    (s.answeredOk h).hostRead = .ok { s.outputs h with status := .ok, state := s.cur } :=
  readResponse_responseWord .ok s.cur (s.outputs h)

/-- Settles O38: the answer keeps `cur` and the table, hence the ports, and both carry the row of `cur`. -/
theorem outputsResponseEqualsPorts : Obligations.OutputsResponseEqualsPorts := by
  intro s free h
  refine ⟨s.answeredOk h, (exec_eq_perform .outputs s).trans (perform_outputs_of_legal h),
    h.represents.outPorts_congr h.represents.answeredOk free, ?_⟩
  rw [s.answeredOk_hostRead h, h.represents.outPorts free]
  rfl

/-- The opcode 0x0 is NOP's alone (30_encoding.md R80). -/
theorem Instr.opcode_eq_zero_iff {i : Instr sampleW} : i.opcode = 0x0#4 ↔ i = .nop := by
  cases i <;> simp [Instr.opcode]

/-- A word that carries NOP's opcode and decodes is NOP's word. -/
theorem encode_nop_of_opField {w : CmdWord sampleW} {i : Instr sampleW} (hop : opField w = 0x0#4) (h : decode w = .ok i) :
    encode .nop = w := by
  obtain ⟨-, -, hi⟩ := decode_eq_ok_iff_fields.mp h
  obtain rfl := Instr.opcode_eq_zero_iff.mp (hi.symm.trans hop)
  exact encode_of_decode h

/-- Settles O10: NOP by its meaning, its word by the codec; another word with its opcode decodes to no command. -/
theorem nopAnswersInPlace : Obligations.NopAnswersInPlace := by
  refine ⟨fun s h => (exec_eq_perform .nop s).trans (perform_nop_of_legal h), fun w => ⟨?_, fun hop hne => ?_⟩⟩
  · exact decode_eq_ok_iff_encode.trans eq_comm
  · cases hw : decode w with
    | error r => exact ⟨r, rfl⟩
    | ok i => exact absurd (encode_nop_of_opField hop hw).symm hne

end Sys2Proof.Machine

/-! ## INIT goes to START, as a reset edge does (40_controller_ops.md R102, R103, 70_reset_and_hazards.md R165) -/

namespace Sys2Proof.Machine

variable {sampleW idW holdW : Nat} {s t : State sampleW idW holdW}

/-- INIT after a reset, whatever `cur` holds (40_controller_ops.md R102). -/
theorem perform_init_of_reset (hr : s.wasReset = true) :
    perform .init s =
      .next ((s.writeCur s.engine.startId).loadResponse .ok
        (responseWord .ok s.engine.startId s.engine.rows[s.engine.start.val].toOutputs)) :=
  (whenReset_of_reset hr _).trans (respond_writeCur_stateCode .ok s s.engine.start)

/-- Settles O11: INIT by its meaning, and its word and START as they are written. -/
theorem initGoesToStart : Obligations.InitGoesToStart :=
  ⟨fun s hr => (exec_eq_perform .init s).trans (perform_init_of_reset hr), rfl, rfl⟩

/-- After a reset edge the block is at START. -/
theorem State.resetEdge_represents (s : State sampleW idW holdW) : Represents s.resetEdge s.engine s.engine.start :=
  ⟨rfl, rfl, rfl⟩

/-- Whenever INIT answers, it leaves the block at START, with a valid response. -/
theorem perform_init_next (h : perform .init s = .next t) :
    Represents t s.engine s.engine.start ∧ t.rspValid = true := by
  obtain ⟨hr, ha⟩ := whenReset_next h
  obtain ⟨hengine, hreset, -, hcur, hvalid, -⟩ := (respond_writeCur_next ha).frame
  exact ⟨⟨hengine, hreset.trans hr, hcur⟩, hvalid⟩

/-- Any machine at START of this hardware's table shows goW (10_state.md R30). -/
theorem Represents.outPorts_goW {s : State} (h : Represents s thisEngine thisEngine.start) (free : OutPorts) :
    s.outPorts free = { state := 0, primary := 0x0C, ped := 0b01, hold := 100 } := by
  rw [h.outPorts, h.cur]
  rfl

/-- Settles O16: INIT and a reset edge leave the same controller, START, and the ports are a function of it. -/
theorem initAgreesWithReset : Obligations.InitAgreesWithReset := by
  intro s t free h
  obtain ⟨ht, hvalid⟩ := perform_init_next (exec_eq_perform .init s ▸ h)
  have hreset := s.resetEdge_represents
  exact ⟨ht.cur.trans hreset.cur.symm, hreset.outPorts_congr ht free, hvalid, rfl,
    fun he => Represents.outPorts_goW (he ▸ ht) free⟩

end Sys2Proof.Machine

/-! # Proofs: the command STEP (41_step.md) -/

/-! ## STEP looks up the table, and what the commands leave unchanged (41_step.md R110, R111, R114) -/

namespace Sys2Proof.Machine

variable {sampleW idW holdW : Nat} {s t : State sampleW idW holdW}

/-- An answer at a state of known outputs is one whole state. -/
theorem Answers.eq_of_outputs {st : Status} {x : StateId idW} {o : Outputs holdW} (h : Answers s t st x)
    (ho : s.engine.outputs? x = some o) : t = (s.writeCur x).loadResponse st (responseWord st x o) := by
  obtain ⟨o', ho', rfl⟩ := h
  obtain rfl := Option.some.inj (ho.symm.trans ho')
  rfl

/-- Settles O13: the two answers of STEP (execStep_in_range, execStep_out_of_range), each at a state whose outputs are in the
table. -/
theorem stepLooksUpTheTable : Obligations.StepLooksUpTheTable := by
  refine fun s h v => ⟨fun hv => ?_, fun hv => ?_, encode_step v⟩
  · obtain ⟨t, ht, ha⟩ := execStep_in_range h (sampleIndex_of_lt hv)
    exact ht.trans (congrArg _ (ha.eq_of_outputs (s.engine.outputs?_stateCode _)))
  · obtain ⟨t, ht, ha⟩ := execStep_out_of_range h (sampleIndex_of_ge hv)
    exact ⟨_, ht.trans (congrArg _ (ha.eq_of_outputs (s.engine.outputs?_of_lt h.2)))⟩

/-- NOP, OUTPUTS and a STEP above 7 answer in place. -/
theorem perform_next_in_place {i : Instr sampleW} (h : perform i s = .next t)
    (hi : i = .nop ∨ i = .outputs ∨ ∃ v, i = .step v ∧ 7 < v.toNat) : ∃ st, Answers s t st s.cur := by
  obtain rfl | rfl | ⟨v, rfl, hv⟩ := hi
  · exact ⟨_, raise_next (whenReset_next h).2⟩
  · exact ⟨_, raise_next (whenReset_next h).2⟩
  · obtain ⟨-, ⟨i, _, hi, -, -⟩ | ⟨-, ha⟩⟩ := execStep_next h
    · exact nomatch hi.symm.trans (sampleIndex_eq_none_iff.mpr hv)
    · exact ⟨_, ha⟩

/-- NOP, OUTPUTS, INIT and a STEP up to 7 are answered OK. -/
theorem answerStatus_eq_ok {i : Instr sampleW}
    (hi : i = .nop ∨ i = .outputs ∨ i = .init ∨ ∃ v, i = .step v ∧ v.toNat ≤ 7) : answerStatus i = .ok := by
  obtain rfl | rfl | rfl | ⟨v, rfl, hv⟩ := hi
  · rfl
  · rfl
  · rfl
  · exact if_neg (Nat.not_lt.mpr hv)

/-- Settles O14: every command only answers (Answers.frame); `cur` is kept by an answer in place, the record by the status
OK. -/
theorem commandFrame : Obligations.CommandFrame := by
  intro i s t h
  rw [exec_eq_perform] at h
  obtain ⟨_, ha⟩ := perform_next_answerStatus h
  obtain ⟨hengine, hreset, hinputs, -, hvalid, herrors⟩ := ha.frame
  refine ⟨hengine, hreset, hinputs, hvalid, fun hi => ?_, fun hi => ?_⟩
  · obtain ⟨_, hplace⟩ := perform_next_in_place h hi
    obtain ⟨-, -, -, hcur, -⟩ := hplace.frame
    exact hcur
  · rw [herrors, answerStatus_eq_ok hi, recordStatus_ok]

end Sys2Proof.Machine

/-! ## Where STEPs lead on this hardware (41_step.md R115) -/

namespace Sys2Proof.Machine

/-- After a command the machine represents the controller whose code `cur` then holds. -/
theorem Represents.of_exec {s t : State} {e : Engine} {c c' : Fin e.n} {i : Instr} (h : Represents s e c)
    (ht : exec i s = .next t) (hcur : t.cur = stateCode c') : Represents t e c' := by
  obtain ⟨hengine, hreset, -⟩ := commandFrame i s t ht
  exact ⟨hengine.trans h.engine, hreset.trans h.wasReset, hcur⟩

/-- A controller whose row has one successor is followed by that successor, on every sample in range. -/
theorem Represents.exec_step_of_sameNext {s : State} {c k : Fin 9} (h : Represents s thisEngine c)
    (hrow : thisEngine.rows[c.val].next = sameNext k) {v : Sample} (hv : v.toNat ≤ 7) :
    ∃ t, exec (.step v) s = .next t ∧ Represents t thisEngine k := by
  obtain ⟨t, ht, hcur⟩ := Machine.exec_step_of_sameNext h.engine h.wasReset hv hrow h.cur
  exact ⟨t, ht, h.of_exec ht hcur⟩

/-- The successors of flashOFF2 are goPed, goW and goS (10_state.md R39). -/
theorem thisEngine_flashOFF2_next : ∀ i : InputIndex,
    stateCode thisEngine.rows[8].next[i.val] = 4#4 ∨ stateCode thisEngine.rows[8].next[i.val] = 0#4 ∨
      stateCode thisEngine.rows[8].next[i.val] = 2#4 := by
  decide

/-- Settles O50: three rows with one successor each, and then the row of flashOFF2. -/
theorem fourStepsLeaveFlashCycle : Obligations.FourStepsLeaveFlashCycle := by
  intro s v1 v2 v3 v4 he hr hc h1 h2 h3 h4
  have flashON1 : Represents s thisEngine (5 : Fin 9) := ⟨he, hr, hc⟩
  obtain ⟨t1, ht1, flashOFF1⟩ := flashON1.exec_step_of_sameNext (k := 6) rfl h1
  obtain ⟨t2, ht2, flashON2⟩ := flashOFF1.exec_step_of_sameNext (k := 7) rfl h2
  obtain ⟨t3, ht3, flashOFF2⟩ := flashON2.exec_step_of_sameNext (k := 8) rfl h3
  obtain ⟨i, -, hi⟩ := exists_index_of_le h4
  obtain ⟨t4, ht4, hrep⟩ := flashOFF2.exec_step hi
  exact ⟨t1, t2, t3, t4, ht1, flashOFF1.cur, ht2, flashON2.cur, ht3, flashOFF2.cur, ht4,
    hrep.cur ▸ thisEngine_flashOFF2_next i⟩

/-- Samples that lead from goW to each named state: a car on S moves to goS and from there to waitS, a pedestrian instead to goPed,
and a car then into the flash cycle. -/
def pathFromGoW : StateName → List Sample
  | .goW => []
  | .waitW => [2]
  | .goS => [2, 2]
  | .waitS => [2, 2, 1]
  | .goPed => [2, 4]
  | .flashON1 => [2, 4, 1]
  | .flashOFF1 => [2, 4, 1, 1]
  | .flashON2 => [2, 4, 1, 1, 1]
  | .flashOFF2 => [2, 4, 1, 1, 1, 1]

/-- The samples of every path are in range. -/
theorem pathFromGoW_in_range (x : StateName) : ∀ v ∈ pathFromGoW x, v.toNat ≤ 7 := by
  cases x <;> decide

/-- Calls of the contract's `Step` along the path of a state lead from goW to it. -/
theorem contractRun_pathFromGoW (x : StateName) :
    stateCode (contractRun thisEngine StateName.goW.id ((pathFromGoW x).map sampleInt)) = x.code := by
  cases x <;> decide

/-- Settles O51: the STEPs along a path simulate the contract's calls (Represents.run), which lead to its state. -/
theorem everyStateReachableFromGoW : Obligations.EveryStateReachableFromGoW := by
  refine fun x => ⟨pathFromGoW x, pathFromGoW_in_range x, fun s he hr hc => ?_⟩
  have goW : Represents s thisEngine StateName.goW.id := ⟨he, hr, hc⟩
  obtain ⟨t, ht, hrep, -⟩ := Represents.run (pathFromGoW x) goW
  exact ⟨t, ht, hrep.cur.trans (contractRun_pathFromGoW x)⟩

end Sys2Proof.Machine

/-! # Proofs: table construction (43_construction.md) -/

/-! ## The round trip, and the fields of an image (43_construction.md R120, R128, R129) -/

namespace Sys2Proof.Machine

variable {idW holdW n : Nat}

/-- Settles O40: this hardware's case of the round trip at every width. -/
theorem buildInvertsSerialize : Obligations.BuildInvertsSerialize :=
  (roundTripAtEveryWidth Config.idW Config.holdW).1 (by decide) (by decide)

/-- Settles O41: this hardware's case of the round trip at every width. -/
theorem serializeInvertsBuild : Obligations.SerializeInvertsBuild :=
  (roundTripAtEveryWidth Config.idW Config.holdW).2

/-- A field with the value of a byte is the low bits of that byte (00_scope.md R11). -/
theorem eq_extractLsb'_of_toNat_eq {k : Nat} {x : Byte} {y : BitVec k} (hk : k ≤ 8) (h : x.toNat = y.toNat) :
    y = x.extractLsb' 0 k := by
  rw [← BitVec.setWidth_eq_extractLsb' hk, setWidth_eq_of_toNat_eq h]

/-- Settles O43: BUILD accepts only images of the engine (build_eq_ok_iff), whose fields have the values of their bytes. -/
theorem buildReadsEveryField : Obligations.BuildReadsEveryField := by
  intro img e h
  obtain ⟨-, hcount, hstart, hrows⟩ := build_eq_ok_iff.mp h
  refine ⟨hcount.symm, hstart.symm, fun s => ?_⟩
  obtain ⟨hprimary, hped, hhold, hnext⟩ := hrows s
  exact ⟨eq_extractLsb'_of_toNat_eq (by decide) hprimary, eq_extractLsb'_of_toNat_eq (by decide) hped,
    hhold.symm.trans (le32_toNat ..), fun i => (hnext i).symm⟩

/-- The hold bytes of a row follow its masks, least significant first (20_memory.md R53). -/
theorem byteAt_rowBytes_hold (r : Row n holdW) (j : Fin 4) :
    byteAt (rowBytes r) (2 + j.val) = (r.hold.setWidth 32).extractLsb' (8 * j.val) 8 := by
  match j with
  | 0 | 1 | 2 | 3 => rfl

/-- Settles O44: each byte is a byte of its row (byteAt_serialize_row), which holds the fields in their order. -/
theorem serializeWritesEveryField : Obligations.SerializeWritesEveryField := by
  refine fun e => ⟨serialize_length e, rfl, rfl, fun s => ?_⟩
  refine ⟨byteAt_serialize_row e s (j := 0) (by decide), byteAt_serialize_row e s (j := 1) (by decide), fun j => ?_,
    fun i => ?_⟩
  · rw [Nat.add_assoc _ 2, ← rowOffset, byteAt_serialize_row e s (by omega), byteAt_rowBytes_hold, BitVec.setWidth_eq]
  · rw [Nat.add_assoc _ 6, ← rowOffset, byteAt_serialize_row e s (by omega), byteAt_rowBytes_next]

end Sys2Proof.Machine

/-! ## The table is fixed for life (43_construction.md R125) -/

namespace Sys2Proof.Machine

variable {sampleW idW holdW : Nat} {s t : State sampleW idW holdW}

/-- An edge does not write the table (10_state.md R29). -/
theorem stepAt_engine (h : stepAt s = .next t) : t.engine = s.engine :=
  (clockEdge_frame h).1

/-- Settles O26: no edge writes the table, so no run does (runEdges_keeps). -/
theorem tableFixedForLife : Obligations.TableFixedForLife := fun k s t h =>
  runEdges_keeps (P := fun u => u.engine = s.engine) (fun _ _ hu hstep => (stepAt_engine hstep).trans hu) k s t rfl h

end Sys2Proof.Machine

/-! ## The first failing check (43_construction.md R120, R123) -/

namespace Sys2Proof.Machine

variable {n : Nat} {img : List Byte} {r : InvalidTable}

/-- `r` is the reason of the first header check that the image fails (43_construction.md R123). -/
def HeaderFails (img : List Byte) : InvalidTable → Prop
  | .badLength => img.length < 2 ∨
      (1 ≤ (byteAt img 0).toNat ∧ (byteAt img 0).toNat ≤ 16 ∧ img.length ≠ 2 + 14 * (byteAt img 0).toNat)
  | .badCount => 2 ≤ img.length ∧ ((byteAt img 0).toNat < 1 ∨ 16 < (byteAt img 0).toNat)
  | .badStart => 2 ≤ img.length ∧ 1 ≤ (byteAt img 0).toNat ∧ (byteAt img 0).toNat ≤ 16 ∧
      img.length = 2 + 14 * (byteAt img 0).toNat ∧ (byteAt img 0).toNat ≤ (byteAt img 1).toNat
  | .reservedBits | .danglingNext => False

/-- `r` is the reason of the first check that row `s` of the image fails (43_construction.md R123). -/
def RowFails (img : List Byte) (s : Nat) : InvalidTable → Prop
  | .reservedBits => RowReserved img s
  | .danglingNext => ¬RowReserved img s ∧ RowDangling img s
  | .badLength | .badCount | .badStart => False

/-- A legal header fails no check. -/
theorem HeaderFails.not_headerLegal (h : HeaderFails img r) : ¬HeaderLegal img := by
  cases r <;> simp only [HeaderFails] at h <;> omega

/-- An image whose header is not legal fails a header check. -/
theorem headerLegal_or_headerFails (img : List Byte) : HeaderLegal img ∨ ∃ r, HeaderFails img r := by
  by_cases hlen : HeaderFails img .badLength
  · exact .inr ⟨_, hlen⟩
  by_cases hcount : HeaderFails img .badCount
  · exact .inr ⟨_, hcount⟩
  by_cases hstart : HeaderFails img .badStart
  · exact .inr ⟨_, hstart⟩
  simp only [HeaderFails] at hlen hcount hstart
  exact .inl (by omega)

/-- A legal row fails no check. -/
theorem RowFails.not_rowLegal {s : Nat} (h : RowFails img s r) : ¬RowLegal img s := by
  rintro ⟨hclear, hnext⟩
  cases r with
  | reservedBits => exact hclear h
  | danglingNext => exact hnext h.2
  | badLength | badCount | badStart => exact h

/-- BUILD reports the header check that fails (43_construction.md R120). -/
theorem build_of_headerFails (h : HeaderFails img r) : build img = .error r := by
  have hmaxN : 2 ^ Config.idW = 16 := Config.two_pow_idW
  unfold build buildWith imageLength
  cases r with
  | badLength =>
    by_cases hshort : img.length < 2
    · rw [if_pos hshort]
    · obtain ⟨hpos, hmax, hlen⟩ := h.resolve_left hshort
      rw [if_neg hshort, dif_pos ⟨hpos, hmax⟩, if_neg hlen]
  | badCount =>
    obtain ⟨hlong, hcount⟩ := h
    rw [if_neg (by omega), dif_neg (by omega)]
  | badStart =>
    obtain ⟨hlong, hpos, hmax, hlen, hstart⟩ := h
    rw [if_neg (by omega), dif_pos ⟨hpos, hmax⟩, if_pos hlen, dif_neg (by omega)]
  | reservedBits | danglingNext => exact h.elim

/-- Past a legal header BUILD fails exactly as its rows do. -/
theorem build_error_iff_of_headerLegal (h : HeaderLegal img) : build img = .error r ↔
    collect (byteAt img 0).toNat (readRow Config.holdW (byteAt img 0).toNat img) = .error r := by
  obtain ⟨hlong, hpos, hmax, hlen, hstart⟩ := h
  unfold build buildWith imageLength
  rw [if_neg (by omega), dif_pos ⟨hpos, hmax⟩, if_pos hlen, dif_pos hstart]
  split <;> simp [*]

/-- A successor byte is refused exactly where it is not below `n`, and always for that reason. -/
theorem readNext_error_iff {b : Nat} {i : Fin 8} :
    readNext n img b i = .error r ↔ n ≤ (byteAt img (b + 6 + i.val)).toNat ∧ r = .danglingNext := by
  unfold readNext
  split
  · simp [*]
  · simp [Nat.not_lt.mp ‹_›, eq_comm]

/-- The successors of a row are refused exactly where one of them is. -/
theorem collect_readNext_error_iff {b : Nat} :
    collect 8 (readNext n img b) = .error r ↔
      (∃ i : Fin 8, n ≤ (byteAt img (b + 6 + i.val)).toNat) ∧ r = .danglingNext := by
  constructor
  · intro h
    obtain ⟨i, hi, -⟩ := collect_error_iff.mp h
    obtain ⟨hge, hr⟩ := readNext_error_iff.mp hi
    exact ⟨⟨i, hge⟩, hr⟩
  · rintro ⟨⟨i, hge⟩, rfl⟩
    cases h : collect 8 (readNext n img b) with
    | error r =>
      obtain ⟨j, hj, -⟩ := collect_error_iff.mp h
      rw [(readNext_error_iff.mp hj).2]
    | ok v =>
      have hlt := readNext_eq_ok_iff.mp (collect_ok_iff.mp h i)
      have := v[i.val].isLt
      omega

/-- A row without reserved bits is refused exactly as its successors are. -/
theorem readRow_error_iff_of_clear {holdW : Nat} {s : Fin n} (h : ¬reservedSet holdW img (rowOffset s.val) = true) :
    readRow holdW n img s = .error r ↔ collect 8 (readNext n img (rowOffset s.val)) = .error r := by
  unfold readRow
  rw [if_neg h]
  split <;> simp [*]

/-- A row is refused exactly for the first check it fails. -/
theorem readRow_error_iff {s : Fin (byteAt img 0).toNat} :
    readRow Config.holdW (byteAt img 0).toNat img s = .error r ↔ RowFails img s.val r := by
  have hreserved : reservedSet Config.holdW img (rowOffset s.val) = true ↔ RowReserved img s.val :=
    reservedSet_iff_masks ..
  by_cases h : reservedSet Config.holdW img (rowOffset s.val) = true
  · rw [readRow, if_pos h]
    cases r <;> simp [RowFails, hreserved.mp h]
  · rw [readRow_error_iff_of_clear h, collect_readNext_error_iff]
    cases r <;> simp [RowFails, hreserved.not.mp h, rowOffset]

/-- The bytes of a row of an image are a legal row. -/
theorem RowAt.rowLegal {s : Nat} {x : Row n} (h : RowAt img (rowOffset s) x) (hn : (byteAt img 0).toNat = n) :
    RowLegal img s := by
  obtain ⟨hprimary, hped, -, hnext⟩ := h
  refine ⟨?_, ?_⟩
  · rintro (hge | hge)
    · exact Nat.not_lt.mpr hge (hprimary ▸ x.primary.isLt)
    · exact Nat.not_lt.mpr hge (hped ▸ x.ped.isLt)
  · rintro ⟨i, hge⟩
    exact Nat.not_lt.mpr hge (hn ▸ hnext i ▸ x.next[i.val].isLt)

/-- A row is read exactly where it is legal. -/
theorem readRow_isOk_iff {s : Fin (byteAt img 0).toNat} :
    (∃ x, readRow Config.holdW (byteAt img 0).toNat img s = .ok x) ↔ RowLegal img s.val := by
  constructor
  · rintro ⟨x, hx⟩
    exact (readRow_eq_ok_iff.mp hx).rowLegal rfl
  · intro hlegal
    cases h : readRow Config.holdW (byteAt img 0).toNat img s with
    | ok x => exact ⟨x, rfl⟩
    | error r => exact absurd hlegal (readRow_error_iff.mp h).not_rowLegal

/-- BUILD fails exactly for the first check the image fails: of its header, or past a legal header of its first row that is
not legal (43_construction.md R123). -/
theorem build_error_iff : build img = .error r ↔ HeaderFails img r ∨
    (HeaderLegal img ∧ ∃ s < (byteAt img 0).toNat, (∀ k < s, RowLegal img k) ∧ RowFails img s r) := by
  obtain hlegal | ⟨r', hfails⟩ := headerLegal_or_headerFails img
  · rw [build_error_iff_of_headerLegal hlegal, collect_error_iff]
    simp only [readRow_error_iff, readRow_isOk_iff]
    constructor
    · rintro ⟨s, hs, hbefore⟩
      exact .inr ⟨hlegal, s.val, s.isLt, fun k hk => hbefore ⟨k, hk.trans s.isLt⟩ hk, hs⟩
    · rintro (hfails | ⟨-, s, hlt, hbefore, hs⟩)
      · exact absurd hlegal hfails.not_headerLegal
      · exact ⟨⟨s, hlt⟩, hs, fun k hk => hbefore k.val hk⟩
  · constructor
    · intro h
      cases (build_of_headerFails hfails).symm.trans h
      exact .inl hfails
    · rintro (h | ⟨hlegal, -⟩)
      · exact build_of_headerFails h
      · exact absurd hlegal hfails.not_headerLegal

/-- An image of an engine has a legal header. -/
theorem ImageOf.headerLegal {e : Engine} (h : ImageOf img e) : HeaderLegal img := by
  obtain ⟨hlen, hcount, hstart, -⟩ := h
  rw [imageLength] at hlen
  have hpos := e.nPos
  have hmax : e.n ≤ 16 := e.nMax
  have hlt := e.start.isLt
  omega

/-- BUILD accepts exactly the images whose header and rows are legal (30_encoding.md R92 to R94). -/
theorem build_isOk_iff : (∃ e, build img = .ok e) ↔ HeaderLegal img ∧ ∀ s < (byteAt img 0).toNat, RowLegal img s := by
  constructor
  · rintro ⟨e, he⟩
    have himage := build_eq_ok_iff.mp he
    exact ⟨himage.headerLegal, fun s hs => (himage.rows ⟨s, himage.count ▸ hs⟩).rowLegal himage.count⟩
  · rintro ⟨hheader, hrows⟩
    cases h : build img with
    | ok e => exact ⟨e, rfl⟩
    | error r =>
      obtain hfails | ⟨-, s, hs, -, hfails⟩ := build_error_iff.mp h
      · exact absurd hheader hfails.not_headerLegal
      · exact absurd (hrows s hs) hfails.not_rowLegal

/-- Settles O42: each clause is one reason's case of build_error_iff. -/
theorem buildReportsFirstFailure : Obligations.BuildReportsFirstFailure := by
  refine ⟨fun img => ⟨build_isOk_iff, ?_, ?_, ?_, ?_, ?_⟩, rfl⟩ <;>
    simp [build_error_iff, HeaderFails, RowFails]

end Sys2Proof.Machine

/-! # Proofs: errors (60_exceptions.md) -/

/-! ## An error answers in place (60_exceptions.md R136, R138) -/

namespace Sys2Proof.Machine

variable {sampleW idW holdW : Nat} {s : State sampleW idW holdW}

/-- A legal state with the response `respond(st, cur)` loaded, what `raise` leaves. -/
def State.raised (s : State sampleW idW holdW) (st : Status) (h : s.Legal) : State sampleW idW holdW :=
  s.loadResponse st (responseWord st s.cur (s.outputs h))

/-- `raise` in a legal state (60_exceptions.md R140). -/
theorem raise_of_legal (st : Status) (h : s.Legal) : raise st s = .next (s.raised st h) :=
  respond_of_outputs st (s.engine.outputs?_of_lt h.2)

/-- An error leaves a legal state, since it keeps `cur` and the table. -/
theorem State.raised_legal (st : Status) (h : s.Legal) : (s.raised st h).Legal := h

/-- An illegal word in a legal state (60_exceptions.md R138). -/
theorem acceptWord_of_illegal {w : CmdWord sampleW} (h : s.Legal) (hw : IllegalByRule w) :
    acceptWord w s = .next (s.raised .illegalCommand h) := by
  obtain ⟨r, hr⟩ := decode_rejects_iff.mpr hw
  simp only [acceptWord, hr, illegalCommand, whenReset_of_reset h.1, raise_of_legal _ h]

/-- The word of a STEP above 7 in a legal state (60_exceptions.md R136). -/
theorem acceptWord_of_step_out_of_range {v : Sample sampleW} (h : s.Legal) (hv : 7 < v.toNat) :
    acceptWord (encode (.step v)) s = .next (s.raised .outOfRangeInput h) := by
  have hi : sampleIndex v = none := sampleIndex_eq_none_iff.mpr hv
  simp only [acceptWord_encode, perform, execStep, hi, whenReset_of_reset h.1, raise_of_legal _ h]

/-- Settles O18: the edge accepts the word, and the error answers in place with the model's record extended. -/
theorem illegalWordAnsweredInPlace : Obligations.IllegalWordAnsweredInPlace := by
  intro s h hacc hill
  have hadv : s.advance.Legal := h
  exact ⟨s.advance.raised .illegalCommand hadv, recordStatus .illegalCommand s.errors,
    (clockEdge_of_command hacc.1 hacc.2).trans (acceptWord_of_illegal hadv hill), State.raised_legal _ hadv, rfl⟩

end Sys2Proof.Machine

/-! ## The first condition decides the status (60_exceptions.md R141) -/

namespace Sys2Proof.Machine

/-- With `rst` = 1 an edge is a reset edge, whatever command is presented (70_reset_and_hazards.md R161). -/
theorem clockEdge_of_reset {sampleW idW holdW : Nat} {p : PortIn sampleW} {s : State sampleW idW holdW}
    (hrst : p.rst = true) : clockEdge p s = .next s.resetEdge := if_pos hrst

/-- An accepting edge of a legal state gives a valid response with the status of the rule's list. -/
theorem step_status_of_accepting {s : State} {code : BitVec 2} (h : s.Legal) (hacc : s.accepting)
    (hcode : statusByRule s.presented.cmd = code) :
    ∃ t, step s = .next t ∧ t.rspValid = true ∧ t.rsp.extractLsb' 0 2 = code := by
  obtain ⟨t, ht, hvalid, -, hstatus, -⟩ := responseLayoutOfEveryAnswer s h hacc
  exact ⟨t, ht, hvalid, hstatus.trans hcode⟩

/-- Settles O23: reset takes the edge; past it, each clause is one branch of the rule's list (step_status_of_accepting). -/
theorem firstConditionDecidesStatus : Obligations.FirstConditionDecidesStatus := by
  refine fun s h => ⟨fun hrst => ?_, fun hacc hill => ?_, fun hacc hlegal hop hv => ?_, fun hacc hlegal hrange => ?_⟩
  · exact ⟨s.advance.resetEdge, clockEdge_of_reset hrst, rfl⟩
  · exact step_status_of_accepting h hacc (if_pos hill)
  · exact step_status_of_accepting h hacc ((if_neg hlegal).trans (if_pos ⟨hop, hv⟩))
  · exact step_status_of_accepting h hacc ((if_neg hlegal).trans (if_neg hrange))

end Sys2Proof.Machine

/-! ## Errors are precise and local (60_exceptions.md R140) -/

namespace Sys2Proof.Machine

variable {sampleW idW holdW : Nat}

/-- A run is observed as its first word's response in front of the run from the state that word leaves. -/
theorem observeWords_cons_of_next {w : CmdWord sampleW} {s t : State sampleW idW holdW} (h : acceptWord w s = .next t)
    (ws : List (CmdWord sampleW)) :
    observeWords (w :: ws) s =
      andThen (observeWords ws t) fun o => .next { o with responses := t.rsp :: o.responses } := by
  rw [observeWords, h, andThen_next]

/-- States alike to the host differ at most in the response register and the record. -/
theorem Indistinguishable.eq_withRegister {t t' : State sampleW idW holdW} (h : Indistinguishable t t') :
    t' = t.withRegister t'.rsp t'.rspValid t'.errors := by
  obtain ⟨hcur, hengine, hreset, hinputs, -, -⟩ := h
  cases t
  cases t'
  subst hcur hengine hreset hinputs
  rfl

/-- No run of words shows what the response register or the record held before it: every response it shows is loaded by the run
itself. -/
theorem observeWords_withRegister : ∀ (ws : List (CmdWord sampleW)) (s : State sampleW idW holdW)
    (rsp : RspWord idW holdW) (valid : Bool) (errors : List Status),
    observeWords ws (s.withRegister rsp valid errors) = observeWords ws s
  | [], _, _, _, _ => rfl
  | w :: ws, s, rsp, valid, errors => by
    have alike := acceptWord_withRegister rsp valid errors w s
    cases h : acceptWord w s with
    | next t =>
      obtain ⟨t', ht', hsame⟩ := alike.of_next h
      obtain ⟨-, _, _, ha⟩ := acceptWord_next h
      obtain ⟨-, -, -, -, hvalid, -⟩ := ha.frame
      have later : observeWords ws t' = observeWords ws t := by
        rw [hsame.eq_withRegister]
        exact observeWords_withRegister ws t _ _ _
      rw [observeWords_cons_of_next ht', observeWords_cons_of_next h, later, hsame.rsp hvalid]
    | fault f => rw [observeWords, observeWords, alike.of_fault h, h]
    | refused q => exact nomatch h ▸ alike

/-- An error changes nothing that a later run shows. -/
theorem observeWords_raised (ws : List (CmdWord sampleW)) {s : State sampleW idW holdW} (st : Status) (h : s.Legal) :
    observeWords ws (s.raised st h) = observeWords ws s :=
  observeWords_withRegister ws s (responseWord st s.cur (s.outputs h)) true (recordStatus st s.errors)

/-- An illegal word or a STEP above 7 raises an error in place. -/
theorem acceptWord_of_error {w : CmdWord sampleW} {s : State sampleW idW holdW} (h : s.Legal)
    (hw : IllegalByRule w ∨ ∃ v : Sample sampleW, w = encode (.step v) ∧ 7 < v.toNat) :
    ∃ st, st.code ≠ 0b00#2 ∧ acceptWord w s = .next (s.raised st h) := by
  obtain hill | ⟨v, rfl, hv⟩ := hw
  · exact ⟨.illegalCommand, by decide, acceptWord_of_illegal h hill⟩
  · exact ⟨.outOfRangeInput, by decide, acceptWord_of_step_out_of_range h hv⟩

/-- Settles O34: an error only loads the response register (acceptWord_of_error), which no later run shows
(observeWords_raised, by induction on the words). -/
theorem errorsArePreciseAndLocal : Obligations.ErrorsArePreciseAndLocal := by
  intro s w h hw
  obtain ⟨st, hst, hraised⟩ := acceptWord_of_error h hw
  refine ⟨(s.raised st h).rsp, fun hok => hst ?_, fun ws => ?_⟩
  · exact (responseWord_status st s.cur (s.outputs h)).symm.trans hok
  · rw [observeWords_cons_of_next hraised, observeWords_raised ws st h]

end Sys2Proof.Machine

/-! # Proofs: reset and hazards (70_reset_and_hazards.md) -/

/-! ## The block never halts (70_reset_and_hazards.md R175) -/

namespace Sys2Proof.Machine

/-- Settles O31: a machine with the invariant after a reset is running, and a running machine goes on (runEdges_of_running, by
induction on the number of edges). -/
theorem blockNeverHalts : Obligations.BlockNeverHalts := by
  intro k s hr hinv
  have running : s.Running s.engine := ⟨hr, hinv, rfl⟩
  obtain ⟨t, ht, -⟩ := runEdges_of_running k running
  exact ⟨t, ht⟩

end Sys2Proof.Machine

/-! ## The canonical host loop keeps the dwell rule (70_reset_and_hazards.md R166, R167, R174) -/

namespace Sys2Proof.Machine

variable {sampleW idW holdW : Nat} {s t : State sampleW idW holdW}

/-- The hold time of a legal state is that of its row. -/
theorem State.holdMs_of_legal (h : s.Legal) : s.holdMs = (s.outputs h).holdMs := by
  simp only [State.holdMs, s.engine.outputs?_of_lt h.2]

/-- The turn the host's loop takes from a legal state at time `now`. -/
def State.turn (s : State sampleW idW holdW) (h : s.Legal) (now : Nat) (v : TurnInput sampleW) : Turn sampleW :=
  { primary := (s.outputs h).primary, ped := (s.outputs h).ped, waitMs := (s.outputs h).holdMs + v.extraMs, sample := v.sample,
    stepTime := now + ((s.outputs h).holdMs + v.extraMs) }

/-- A turn's STEP comes no sooner than the hold time of the state after the turn's start. -/
theorem State.add_holdMs_le_turn_stepTime (h : s.Legal) (now : Nat) (v : TurnInput sampleW) :
    now + s.holdMs ≤ (s.turn h now v).stepTime := by
  rw [s.holdMs_of_legal h]
  exact Nat.add_le_add_left (Nat.le_add_right _ _) now

/-- A turn's STEP is answered in every legal state, whatever its sample, and leaves a legal state. -/
theorem clockEdge_turn_of_legal (h : s.Legal) (now : Nat) (v : TurnInput sampleW) :
    ∃ t, clockEdge (s.turn h now v).timedPort.port s = .next t ∧ t.Legal := by
  obtain ⟨t, ht, hrep, -⟩ := h.represents.step v.sample
  exact ⟨t, ht, hrep.legal⟩

/-- From a legal state the loop takes its turn, and goes on at the time of the turn's STEP from the state this leaves. -/
theorem hostLoop_cons_of_next (h : s.Legal) {now : Nat} {v : TurnInput sampleW}
    (ht : clockEdge (s.turn h now v).timedPort.port s = .next t) (vs : List (TurnInput sampleW)) :
    hostLoop now (v :: vs) s = s.turn h now v :: hostLoop (s.turn h now v).stepTime vs t := by
  change clockEdge (PortIn.command (encode (.step v.sample))) s = .next t at ht
  simp only [hostLoop, s.engine.outputs?_of_lt h.2, ht]
  rfl

/-- A schedule whose first edge is answered keeps the dwell rule exactly where that edge is not early and the rest keeps the
rule. -/
theorem keepsDwell_cons_of_next {entered now : Nat} {p : TimedPort sampleW} (ht : clockEdge p.port s = .next t)
    (ps : List (TimedPort sampleW)) :
    keepsDwell entered now (p :: ps) s = true ↔
      now ≤ p.time ∧ (p.port.presentsStep = true → entered + s.holdMs ≤ p.time) ∧
        keepsDwell (if p.port.entersState then p.time else entered) p.time ps t = true := by
  simp only [keepsDwell, ht, Bool.and_eq_true, decide_eq_true_eq, Bool.or_eq_true, Bool.not_eq_true', and_assoc]
  cases p.port.presentsStep <;> simp

/-- The loop keeps the dwell rule also where the block entered its state before the loop's turn began, as it did when the STEP of
the turn before was out of range. -/
theorem keepsDwell_hostLoop : ∀ (vs : List (TurnInput sampleW)) {entered now : Nat} {s : State sampleW idW holdW},
    s.Legal → entered ≤ now → keepsDwell entered now ((hostLoop now vs s).map Turn.timedPort) s = true
  | [], _, _, _, _, _ => rfl
  | v :: vs, entered, now, s, h, hle => by
    obtain ⟨t, ht, htlegal⟩ := clockEdge_turn_of_legal h now v
    have held : now + s.holdMs ≤ (s.turn h now v).stepTime := s.add_holdMs_le_turn_stepTime h now v
    rw [hostLoop_cons_of_next h ht, List.map_cons, keepsDwell_cons_of_next ht]
    refine ⟨(Nat.le_add_right _ _).trans held, fun _ => (Nat.add_le_add_right hle _).trans held,
      keepsDwell_hostLoop vs htlegal ?_⟩
    split
    · exact le_rfl
    · exact hle.trans ((Nat.le_add_right _ _).trans held)

/-- The loop takes one turn per sample, in order. -/
theorem hostLoop_samples : ∀ (vs : List (TurnInput sampleW)) (now : Nat) {s : State sampleW idW holdW}, s.Legal →
    (hostLoop now vs s).map Turn.sample = vs.map TurnInput.sample
  | [], _, _, _ => rfl
  | v :: vs, now, s, h => by
    obtain ⟨t, ht, htlegal⟩ := clockEdge_turn_of_legal h now v
    rw [hostLoop_cons_of_next h ht, List.map_cons, List.map_cons, hostLoop_samples vs _ htlegal]
    rfl

/-- Where the host brings a turn's input, the loop's first turn is the state's with that input. -/
theorem hostLoop_head? (h : s.Legal) (now : Nat) (vs : List (TurnInput sampleW)) :
    (hostLoop now vs s).head? = vs.head?.map (s.turn h now) := by
  cases vs with
  | nil => rfl
  | cons v vs =>
    obtain ⟨t, ht, -⟩ := clockEdge_turn_of_legal h now v
    rw [hostLoop_cons_of_next h ht]
    rfl

/-- Settles O54: the two inductions on what the host brings, and the first turn (hostLoop_head?). -/
theorem hostLoopKeepsDwell : Obligations.HostLoopKeepsDwell := by
  refine fun now vs s h => ⟨keepsDwell_hostLoop vs h le_rfl, hostLoop_samples vs now h, fun turn hturn v hv => ?_⟩
  rw [hostLoop_head? h, Option.mem_def.mp hv] at hturn
  obtain rfl : s.turn h now v = turn := Option.some.inj hturn
  exact ⟨rfl, rfl, rfl, rfl⟩

end Sys2Proof.Machine

/-! ## Where a command stops (70_reset_and_hazards.md R162, 93_implementation_defined.md I7, I9) -/

namespace Sys2Proof.Machine

variable {sampleW idW holdW : Nat} {s : State sampleW idW holdW}

/-- Addresses `N..15` have no successors (20_memory.md R51). -/
theorem nextStateDecoder_of_ge (e : Engine idW holdW) {x : StateId idW} (i : InputIndex) (h : e.n ≤ x.toNat) :
    nextStateDecoder e x i = none := by
  rw [nextStateDecoder, e.row?_of_ge h, Option.map_none]

/-- No response can be given about a `cur` that names no state. -/
theorem respond_cur_of_ge (st : Status) (h : s.engine.n ≤ s.cur.toNat) : respond st s.cur s = .fault (.noSuchState s.cur) :=
  respond_of_no_outputs st (s.engine.outputs?_of_ge h)

/-- Before the first reset edge every command is a fault. -/
theorem perform_of_not_reset (i : Instr sampleW) (h : s.wasReset = false) : perform i s = .fault .commandBeforeReset := by
  cases i with
  | nop | init | step _ | outputs => exact whenReset_of_not_reset h _

/-- Every command but INIT needs the row of `cur`, STEP also where its sample is out of range. -/
theorem perform_of_ge {i : Instr sampleW} (hr : s.wasReset = true) (h : s.engine.n ≤ s.cur.toNat) (hi : i ≠ .init) :
    perform i s = .fault (.noSuchState s.cur) := by
  cases i with
  | nop | outputs => exact (whenReset_of_reset hr _).trans (respond_cur_of_ge .ok h)
  | init => exact absurd rfl hi
  | step v =>
    refine (whenReset_of_reset hr _).trans ?_
    cases sampleIndex v with
    | none => exact respond_cur_of_ge .outOfRangeInput h
    | some i => simp only [nextStateDecoder_of_ge s.engine i h]

/-- Settles O15: the two faults (perform_of_not_reset, perform_of_ge), and the answer of a legal state. -/
theorem commandsStopOnlyWithoutAState : Obligations.CommandsStopOnlyWithoutAState := by
  intro i s
  rw [exec_eq_perform]
  refine ⟨perform_of_not_reset i, perform_of_ge, fun h => ?_⟩
  obtain ⟨t, _, _, ht, -⟩ := perform_of_legal i h
  rw [ht]
  rfl

/-- Before the first reset edge every word, legal or illegal, is a fault. -/
theorem acceptWord_of_not_reset (w : CmdWord sampleW) (h : s.wasReset = false) :
    acceptWord w s = .fault .commandBeforeReset := by
  unfold acceptWord
  split
  · exact perform_of_not_reset _ h
  · exact whenReset_of_not_reset h _

/-- Before the first reset edge the output ports are free. -/
theorem State.outPorts_of_not_reset (h : s.wasReset = false) (free : OutPorts idW holdW) : s.outPorts free = free :=
  if_neg (ne_true_of_eq_false h)

/-- Settles O21: the edge accepts the word, which faults whatever it is, and the ports are free. -/
theorem commandBeforeResetFaults : Obligations.CommandBeforeResetFaults := fun s h =>
  ⟨fun hacc => (clockEdge_of_command hacc.1 hacc.2).trans (acceptWord_of_not_reset (s := s.advance) s.presented.cmd h),
    State.outPorts_of_not_reset h⟩

end Sys2Proof.Machine

/-! ## Reset and boot (70_reset_and_hazards.md R160, R161, R163, R164) -/

namespace Sys2Proof.Machine

/-- A step at which `rst` is 1 is a reset edge past the plan's head, whatever command is presented. -/
theorem step_of_reset {s : State} (hrst : s.presented.rst = true) : step s = .next s.advance.resetEdge :=
  clockEdge_of_reset hrst

/-- A reset edge repeated is one reset edge. -/
theorem State.resetEdge_resetEdge {sampleW idW holdW : Nat} (s : State sampleW idW holdW) :
    s.resetEdge.resetEdge = s.resetEdge := rfl

/-- Settles O19: the step is a reset edge, and a second one repeats its effect. -/
theorem resetEdgeGoesToStart : Obligations.ResetEdgeGoesToStart :=
  ⟨fun s hrst => ⟨step_of_reset hrst, s.resetEdge_resetEdge⟩, rfl, rfl⟩

/-- Settles O30: a reset edge establishes the invariant, and leaves the reset state as it is. -/
theorem resetEstablishesInv : Obligations.ResetEstablishesInv :=
  ⟨State.resetEdge_inv, State.resetEdge_inv State.reset⟩

/-- Settles O46: after a reset edge the block is at START, and START of this hardware shows goW. -/
theorem resetOutputsAreGoW : Obligations.ResetOutputsAreGoW := by
  intro s free he hrst
  have atStart : Represents s.advance.resetEdge thisEngine thisEngine.start := he ▸ s.advance.resetEdge_represents
  exact ⟨_, step_of_reset hrst, atStart.cur, rfl, atStart.outPorts_goW free⟩

/-- Boot is BUILD and one reset edge of the engine built. -/
theorem boot_of_build {sampleW idW holdW : Nat} {img : List Byte} {e : Engine idW holdW} (h : build img idW holdW = .ok e)
    (cur : StateId idW) (rsp : RspWord idW holdW) (valid : Bool) :
    boot img cur rsp valid sampleW = .ok (State.powerOn e cur rsp valid sampleW).resetEdge := by
  simp only [boot, h]

/-- This hardware's engine serializes to its image (30_encoding.md R95). -/
theorem serialize_thisEngine : serialize thisEngine = thisImage := by rfl

/-- This hardware's image builds its engine (43_construction.md R126). -/
theorem build_thisImage : build thisImage = .ok thisEngine := serialize_thisEngine ▸ buildInvertsSerialize thisEngine

/-- Settles O45: the image builds this hardware's engine, and a reset edge of it is the reset state but for `rsp`, which it does
not write. -/
theorem bootingThisImageGivesReset : Obligations.BootingThisImageGivesReset :=
  ⟨fun cur rsp valid => boot_of_build build_thisImage cur rsp valid, serialize_thisEngine⟩

end Sys2Proof.Machine

/-! ## The model's record of errors (92_eei_decisions.md D20) -/

namespace Sys2Proof.Machine

/-- What a response with a status code adds to the model's record (92_eei_decisions.md D20). -/
def recordedOfCode (code : BitVec 2) : List Status :=
  if code = 0b01#2 then [.outOfRangeInput] else if code = 0b10#2 then [.illegalCommand] else []

/-- The record takes of a status what its code in the response says. -/
theorem recordStatus_eq_append (st : Status) (l : List Status) : recordStatus st l = l ++ recordedOfCode st.code := by
  cases st with
  | ok => exact (List.append_nil l).symm
  | outOfRangeInput => rfl
  | illegalCommand => rfl

/-- An answer adds to the record what the status in its response says. -/
theorem Answers.errors_eq {sampleW idW holdW : Nat} {s t : State sampleW idW holdW} {st : Status} {x : StateId idW}
    (h : Answers s t st x) : t.errors = s.errors ++ recordedOfCode (t.rsp.extractLsb' 0 2) := by
  obtain ⟨-, -, -, -, -, herrors⟩ := h.frame
  rw [herrors, recordStatus_eq_append, h.rsp_status]

/-- Settles O28: a reset edge and an idle edge give no response and keep the record; every other edge is an answer
(Answers.errors_eq). -/
theorem recordTakesEveryErrorStatus : Obligations.RecordTakesEveryErrorStatus := by
  intro s t h
  obtain ⟨-, rfl⟩ | ⟨-, -, hw⟩ | ⟨-, -, rfl⟩ := clockEdge_next h
  · simp
  · obtain ⟨-, _, _, ha⟩ := acceptWord_next hw
    obtain ⟨-, -, -, -, hvalid, -⟩ := ha.frame
    simpa [hvalid, recordedOfCode] using ha.errors_eq
  · simp

end Sys2Proof.Machine
